-- ==== Sys2Proof/Word.lean ====
section
/-! DEFINITION. The word type of the machine and the widths of a memory access
(spec/00_scope.md R8, R10; spec/20_memory.md R43). -/

namespace Sys2Proof

/-- A register value, `pc`, an address or an instruction word: 32 bits (R8, R10). -/
abbrev Word := BitVec 32

/-- The smallest addressable unit of memory (R27, R40). -/
abbrev Byte := BitVec 8

/-- A register field of an instruction word: every value 0 to 31 is legal (R71). -/
abbrev RegIdx := BitVec 5

/-- The three widths a memory access can have (R43). -/
inductive Width where
  | byte
  | half
  | word
  deriving DecidableEq, Repr

/-- `n` of `MemRead(addr, n)` and `MemWrite(addr, n, v)` (R48, R49). -/
def Width.bytes : Width → Nat
  | .byte => 1
  | .half => 2
  | .word => 4

/-- `8n`: the number of bits an access of this width moves (R48, R49). -/
abbrev Width.bits : Width → Nat
  | .byte => 8
  | .half => 16
  | .word => 32

end Sys2Proof
end

