-- ==== Sys2Proof/Config.lean ====
section
/-! DEFINITION. The implementation parameters of spec/00_scope.md R8: `MEM_SIZE`, `ILLEGAL_POLICY`,
`RESET_PC`. Nothing here is written by any instruction. -/

namespace Sys2Proof

/-- `ILLEGAL_POLICY` (R8, R190, R191, R194; decision D1): what a word that is no instruction does. -/
inductive IllegalPolicy where
  /-- `fault`, the spec's default: the word raises `IllegalInstruction` (R190). -/
  | fault
  /-- `skip`, the behaviour of the reference: the word only advances `pc` by 4 (R191). -/
  | skip
  deriving DecidableEq, Repr

/-- The parameters of one machine, fixed for a run (R8, R194). -/
structure Config where
  /-- `MEM_SIZE`, the capacity of memory in bytes (R8, R27). -/
  memSize : Nat
  /-- `ILLEGAL_POLICY` (R8). -/
  illegalPolicy : IllegalPolicy
  deriving DecidableEq, Repr

namespace Config

/-- The spec's default values: 65536 bytes, `fault` (R8). -/
def reference : Config := { memSize := 65536, illegalPolicy := .fault }

/-- The constraint R8 and decision D13 put on `MEM_SIZE`. -/
def wf (c : Config) : Bool :=
  decide (4 ≤ c.memSize) && decide (c.memSize ≤ 2 ^ 32) && decide (c.memSize % 4 = 0)

/-- `RESET_PC`, fixed (R8, R33). -/
def resetPc : Word := 0#32

end Config

end Sys2Proof
end

