-- ==== Sys2Proof/Machine/State.lean ====
section
/-! DEFINITION. The processor state of spec/10_state.md as plain data, the two faults of
spec/60_exceptions.md R200, the refusals, and the state after reset (R33). -/

namespace Sys2Proof.Machine

/-- Memory as the list of its non-zero bytes, addresses strictly rising: the one canonical form
(`Memory.wf` in Machine/Ops.lean). An address that is not listed reads 0, the reset contents (R33). -/
abbrev Memory := List Host.Cell

/-- The two faults of R200, with what each records (decision D12). A meaning that answers one of them
raises it (`raise` of R10); `step` takes it (`State.takeFault`, R203). Both are safe: the machine stops
where the spec says it stops. -/
inductive Fault where
  /-- `BoundsViolation(addr, n)`: raised by the fetch of every step and by the loads and stores when
  `u(addr) + n > MEM_SIZE` (R50, R201). Safe. -/
  | boundsViolation (addr : Word) (n : Width)
  /-- `IllegalInstruction(pc, w)`: raised for an unrecognised word under `ILLEGAL_POLICY = fault` (R190,
  R202). Safe. -/
  | illegalInstruction (pc word : Word)
  deriving DecidableEq, Repr

/-- What the model gives no meaning. No instruction and no step answers one of these. -/
inductive Refusal where
  /-- An instruction without a meaning yet: no arm of `exec` answers it. Safe. -/
  | notModelled (mnemonic : String)
  /-- `LoadWord` with an index whose word lies outside memory, refused with `BoundsViolation` at that byte
  address (an integer: it can exceed 32 bits); nothing is written (R238, decision D20). Raised by
  `loadWord` only. Safe. -/
  | loadBoundsViolation (addr : Nat) (n : Width)
  /-- `LoadWord` after the first step since reset, which is not legal (R241, R244; U13 of
  spec/93_implementation_defined.md); nothing is written. Raised by `hostAct` only. Safe. -/
  | loadAfterFirstStep (index : Nat)
  deriving DecidableEq, Repr

/-- The state of R20 to R28. `x[0]` has no storage (R21, decision D14): `x` holds `x[1]` to `x[31]`, the
register `i` at index `i - 1`. `cfg` holds the parameters of R8, which nothing writes (R194). -/
structure State where
  /-- The parameters of this machine: not state, fixed for a run (R8, R194; log 1). -/
  cfg : Config
  /-- `x[1] .. x[31]` (R20). -/
  x : Vector Word 31
  /-- The address of the instruction to execute (R24). -/
  pc : Word
  /-- `mem[0 .. MEM_SIZE-1]` (R27). -/
  mem : Memory
  /-- The fault status (R28): `none`, or the fault that ended the run. -/
  fault : Option Fault
  deriving DecidableEq, Repr

/-- The state after reset of a machine with the parameters `c`: registers and memory zero, `pc` at
`RESET_PC`, no fault (R33, R230). -/
def State.resetWith (c : Config) : State :=
  { cfg := c, x := Vector.replicate 31 0#32, pc := Config.resetPc, mem := [], fault := none }

/-- The state after reset of the machine with the spec's default parameters (R8, R33). -/
def State.reset : State := State.resetWith Config.reference

end Sys2Proof.Machine
end

