-- ==== Sys2Proof/Machine/Flags.lean ====
section
/-! DEFINITION. The hardware has no flags (spec/10_state.md R29): a branch compares two registers itself
and a set-less-than writes its 0 or 1 to a general register. This file holds those comparisons and the
shift operations (spec/42_branch.md, spec/44_alu_register.md R140, R152, R153). -/

namespace Sys2Proof.Machine

/-- `a = b`, all 32 bits equal (R121). -/
def equalBits (a b : Word) : Bool := a == b

/-- `s(a) < s(b)`: both operands read as two's complement (R123, R140, R145). -/
def lessSigned (a b : Word) : Bool := decide (a.toInt < b.toInt)

/-- `u(a) < u(b)`: both operands read as unsigned (R125, R140, R146). -/
def lessUnsigned (a b : Word) : Bool := decide (a.toNat < b.toNat)

/-- The 32-bit 1 or 0 of a set-less-than (R145, R146). -/
def oneIf (c : Bool) : Word := if c then 1#32 else 0#32

/-- `a << k`, zeros shifted in (R144, R153). -/
def shiftLeft (a : Word) (k : BitVec 5) : Word := a <<< k.toNat

/-- `a >>u k`, zeros shifted in (R148, R153). -/
def shiftRightLogical (a : Word) (k : BitVec 5) : Word := a >>> k.toNat

/-- `a >>s k`: the vacated high bits take the sign bit of `a` (R149, R152). -/
def shiftRightArith (a : Word) (k : BitVec 5) : Word := a.sshiftRight k.toNat

end Sys2Proof.Machine
end

