-- ==== Sys2Proof/WellFormed.lean ====
section
/-! DEFINITION. Which terms of `Instr` an instruction word can stand for: the immediate is a value
that the immediate decoder of its format can give (spec/30_encoding.md R73 to R77). Every register
index and every shift amount is legal (R71, R82). -/

namespace Sys2Proof

/-- A value of `immI` or `immS`: the sign extension of its own low 12 bits (R73, R74). -/
def fitsImm12 (imm : Word) : Bool :=
  imm == (imm.extractLsb' 0 12).signExtend 32

/-- A value of `immB`: 13 bits sign-extended, bit 0 zero (R75). -/
def fitsImm13 (imm : Word) : Bool :=
  imm == (imm.extractLsb' 0 13).signExtend 32 && imm.getLsbD 0 == false

/-- A value of `immJ`: 21 bits sign-extended, bit 0 zero (R76). -/
def fitsImm21 (imm : Word) : Bool :=
  imm == (imm.extractLsb' 0 21).signExtend 32 && imm.getLsbD 0 == false

/-- A value of `immU`: the low 12 bits are zero (R77). -/
def fitsImmU (imm : Word) : Bool :=
  imm.extractLsb' 0 12 == 0#12

/-- The well-formedness check of an instruction. -/
def Instr.wf : Instr → Bool
  | .lui _ imm => fitsImmU imm
  | .auipc _ imm => fitsImmU imm
  | .jal _ imm => fitsImm21 imm
  | .beq _ _ imm => fitsImm13 imm
  | .bne _ _ imm => fitsImm13 imm
  | .blt _ _ imm => fitsImm13 imm
  | .bge _ _ imm => fitsImm13 imm
  | .bltu _ _ imm => fitsImm13 imm
  | .bgeu _ _ imm => fitsImm13 imm
  | .sb _ _ imm => fitsImm12 imm
  | .sh _ _ imm => fitsImm12 imm
  | .sw _ _ imm => fitsImm12 imm
  | .add _ _ _ => true
  | .sub _ _ _ => true
  | .sll _ _ _ => true
  | .slt _ _ _ => true
  | .sltu _ _ _ => true
  | .xor _ _ _ => true
  | .srl _ _ _ => true
  | .sra _ _ _ => true
  | .or _ _ _ => true
  | .and _ _ _ => true
  | .lb _ _ imm => fitsImm12 imm
  | .lh _ _ imm => fitsImm12 imm
  | .lw _ _ imm => fitsImm12 imm
  | .lbu _ _ imm => fitsImm12 imm
  | .lhu _ _ imm => fitsImm12 imm
  | .addi _ _ imm => fitsImm12 imm
  | .slti _ _ imm => fitsImm12 imm
  | .sltiu _ _ imm => fitsImm12 imm
  | .xori _ _ imm => fitsImm12 imm
  | .ori _ _ imm => fitsImm12 imm
  | .andi _ _ imm => fitsImm12 imm
  | .slli _ _ _ => true
  | .srli _ _ _ => true
  | .srai _ _ _ => true

end Sys2Proof
end

