-- ==== Sys2Proof/Decode.lean ====
section
/-! DEFINITION. The instruction decoder of spec/30_encoding.md (R70 to R86), the encoder written from
the same formats, and the opcode table of R80 as data. -/

namespace Sys2Proof

/-! ### Extension, and a word as its four bytes in memory -/

/-- `sext_N(v)` of R10: the 32-bit value with every bit above `N-1` equal to the sign bit of `v`. -/
def sext {n : Nat} (v : BitVec n) : Word := v.signExtend 32

/-- `zext_N(v)` of R10: the 32-bit value with every bit above `N-1` zero. -/
def zext {n : Nat} (v : BitVec n) : Word := v.zeroExtend 32

/-- `(b0, b1, b2, b3)` as a word, `b0` the byte at the lowest address and the most significant (R44). -/
def wordOfBytes (b0 b1 b2 b3 : Byte) : Word := b0 ++ b1 ++ b2 ++ b3

/-- The bytes of a word in ascending address order, most significant first (R44). -/
def bytesOfWord (v : Word) : List Byte :=
  [v.extractLsb' 24 8, v.extractLsb' 16 8, v.extractLsb' 8 8, v.extractLsb' 0 8]

/-! ### Fields (R71) -/

/-- `opcode = w[6:0]`. -/
def opcodeOf (w : Word) : BitVec 7 := w.extractLsb' 0 7
/-- `rd = w[11:7]`. -/
def rdOf (w : Word) : RegIdx := w.extractLsb' 7 5
/-- `funct3 = w[14:12]`. -/
def funct3Of (w : Word) : BitVec 3 := w.extractLsb' 12 3
/-- `rs1 = w[19:15]`. -/
def rs1Of (w : Word) : RegIdx := w.extractLsb' 15 5
/-- `rs2 = w[24:20]`. -/
def rs2Of (w : Word) : RegIdx := w.extractLsb' 20 5
/-- `funct7 = w[31:25]`. -/
def funct7Of (w : Word) : BitVec 7 := w.extractLsb' 25 7
/-- `shamt = w[24:20]`, the shift amount of SLLI, SRLI and SRAI (R82). -/
def shamtOf (w : Word) : BitVec 5 := w.extractLsb' 20 5

/-! ### Immediates: five total functions of the word (R78) -/

/-- `immI = sext_12(w[31:20])` (R73). -/
def immI (w : Word) : Word := sext (w.extractLsb' 20 12)

/-- `immS = sext_12(w[31:25], w[11:7])` (R74). -/
def immS (w : Word) : Word := sext (w.extractLsb' 25 7 ++ w.extractLsb' 7 5)

/-- `immB = sext_13(w[31], w[7], w[30:25], w[11:8], 0)` (R75). -/
def immB (w : Word) : Word :=
  sext (w.extractLsb' 31 1 ++ w.extractLsb' 7 1 ++ w.extractLsb' 25 6 ++ w.extractLsb' 8 4 ++ 0#1)

/-- `immJ = sext_21(w[31], w[19:12], w[20], w[30:21], 0)` (R76). -/
def immJ (w : Word) : Word :=
  sext (w.extractLsb' 31 1 ++ w.extractLsb' 12 8 ++ w.extractLsb' 20 1 ++ w.extractLsb' 21 10 ++ 0#1)

/-- `immU = (w[31:12], 000000000000)` (R77). -/
def immU (w : Word) : Word := w.extractLsb' 12 20 ++ 0#12

/-! ### The decoder (R81) -/

/-- Why a word is no instruction: the classes (a) to (f) of R83, and a byte list that holds no whole
word. -/
inductive Unrecognised where
  /-- (a): the opcode is none of the eight of R79. -/
  | opcode (op : BitVec 7)
  /-- (b): BRANCH with `funct3` 010 or 011. -/
  | branchFunct3 (f3 : BitVec 3)
  /-- (c): STORE with `funct3` 011 to 111. -/
  | storeFunct3 (f3 : BitVec 3)
  /-- (d): LOAD with `funct3` 011, 110 or 111. -/
  | loadFunct3 (f3 : BitVec 3)
  /-- (e): OP with a `(funct7, funct3)` pair that selects nothing. -/
  | opFunct (f7 : BitVec 7) (f3 : BitVec 3)
  /-- (f): the shift forms of OP-IMM with another `funct7`. -/
  | shiftFunct7 (f7 : BitVec 7) (f3 : BitVec 3)
  /-- Fewer than the four bytes of an instruction (R70). -/
  | tooShort
  deriving DecidableEq, Repr

/-- BRANCH, `opcode 1100011` (R81). -/
def decodeBranch (w : Word) : Except Unrecognised Instr :=
  match funct3Of w with
  | 0b000#3 => .ok (.beq (rs1Of w) (rs2Of w) (immB w))
  | 0b001#3 => .ok (.bne (rs1Of w) (rs2Of w) (immB w))
  | 0b100#3 => .ok (.blt (rs1Of w) (rs2Of w) (immB w))
  | 0b101#3 => .ok (.bge (rs1Of w) (rs2Of w) (immB w))
  | 0b110#3 => .ok (.bltu (rs1Of w) (rs2Of w) (immB w))
  | 0b111#3 => .ok (.bgeu (rs1Of w) (rs2Of w) (immB w))
  | f3 => .error (.branchFunct3 f3)

/-- STORE, `opcode 0100011` (R81). -/
def decodeStore (w : Word) : Except Unrecognised Instr :=
  match funct3Of w with
  | 0b000#3 => .ok (.sb (rs1Of w) (rs2Of w) (immS w))
  | 0b001#3 => .ok (.sh (rs1Of w) (rs2Of w) (immS w))
  | 0b010#3 => .ok (.sw (rs1Of w) (rs2Of w) (immS w))
  | f3 => .error (.storeFunct3 f3)

/-- OP, `opcode 0110011`: `funct7` is decoded strictly (R81, decision D3). -/
def decodeOp (w : Word) : Except Unrecognised Instr :=
  match funct7Of w, funct3Of w with
  | 0b0000000#7, 0b000#3 => .ok (.add (rdOf w) (rs1Of w) (rs2Of w))
  | 0b0100000#7, 0b000#3 => .ok (.sub (rdOf w) (rs1Of w) (rs2Of w))
  | 0b0000000#7, 0b001#3 => .ok (.sll (rdOf w) (rs1Of w) (rs2Of w))
  | 0b0000000#7, 0b010#3 => .ok (.slt (rdOf w) (rs1Of w) (rs2Of w))
  | 0b0000000#7, 0b011#3 => .ok (.sltu (rdOf w) (rs1Of w) (rs2Of w))
  | 0b0000000#7, 0b100#3 => .ok (.xor (rdOf w) (rs1Of w) (rs2Of w))
  | 0b0000000#7, 0b101#3 => .ok (.srl (rdOf w) (rs1Of w) (rs2Of w))
  | 0b0100000#7, 0b101#3 => .ok (.sra (rdOf w) (rs1Of w) (rs2Of w))
  | 0b0000000#7, 0b110#3 => .ok (.or (rdOf w) (rs1Of w) (rs2Of w))
  | 0b0000000#7, 0b111#3 => .ok (.and (rdOf w) (rs1Of w) (rs2Of w))
  | f7, f3 => .error (.opFunct f7 f3)

/-- LOAD, `opcode 0000011` (R81). -/
def decodeLoad (w : Word) : Except Unrecognised Instr :=
  match funct3Of w with
  | 0b000#3 => .ok (.lb (rdOf w) (rs1Of w) (immI w))
  | 0b001#3 => .ok (.lh (rdOf w) (rs1Of w) (immI w))
  | 0b010#3 => .ok (.lw (rdOf w) (rs1Of w) (immI w))
  | 0b100#3 => .ok (.lbu (rdOf w) (rs1Of w) (immI w))
  | 0b101#3 => .ok (.lhu (rdOf w) (rs1Of w) (immI w))
  | f3 => .error (.loadFunct3 f3)

/-- The shift forms of OP-IMM, `funct3` 001 and 101 (R81, R82, decisions D3 and D4). -/
def decodeShiftImm (w : Word) : Except Unrecognised Instr :=
  match funct7Of w, funct3Of w with
  | 0b0000000#7, 0b001#3 => .ok (.slli (rdOf w) (rs1Of w) (shamtOf w))
  | 0b0000000#7, 0b101#3 => .ok (.srli (rdOf w) (rs1Of w) (shamtOf w))
  | 0b0100000#7, 0b101#3 => .ok (.srai (rdOf w) (rs1Of w) (shamtOf w))
  | f7, f3 => .error (.shiftFunct7 f7 f3)

/-- OP-IMM, `opcode 0010011` (R81). -/
def decodeOpImm (w : Word) : Except Unrecognised Instr :=
  match funct3Of w with
  | 0b000#3 => .ok (.addi (rdOf w) (rs1Of w) (immI w))
  | 0b010#3 => .ok (.slti (rdOf w) (rs1Of w) (immI w))
  | 0b011#3 => .ok (.sltiu (rdOf w) (rs1Of w) (immI w))
  | 0b100#3 => .ok (.xori (rdOf w) (rs1Of w) (immI w))
  | 0b110#3 => .ok (.ori (rdOf w) (rs1Of w) (immI w))
  | 0b111#3 => .ok (.andi (rdOf w) (rs1Of w) (immI w))
  | _ => decodeShiftImm w

/-- `decode(w)` of R81: total; one of the 36 instructions with its fields, or the reason why the
word is unrecognised. -/
def decode (w : Word) : Except Unrecognised Instr :=
  match opcodeOf w with
  | 0b0110111#7 => .ok (.lui (rdOf w) (immU w))
  | 0b0010111#7 => .ok (.auipc (rdOf w) (immU w))
  | 0b1101111#7 => .ok (.jal (rdOf w) (immJ w))
  | 0b1100011#7 => decodeBranch w
  | 0b0100011#7 => decodeStore w
  | 0b0110011#7 => decodeOp w
  | 0b0000011#7 => decodeLoad w
  | 0b0010011#7 => decodeOpImm w
  | op => .error (.opcode op)

/-- The decoder on bytes in ascending address order: the first four, big-endian (R44, R56), and the
bytes after them. Total on any list. -/
def decodeBytes : List Byte → Except Unrecognised (Instr × List Byte)
  | b0 :: b1 :: b2 :: b3 :: rest =>
    match decode (wordOfBytes b0 b1 b2 b3) with
    | .ok i => .ok (i, rest)
    | .error e => .error e
  | _ => .error .tooShort

/-- The 32-bit word whose low `nbits` bits are those of `w` and whose other bits are zero: an
instruction as spec/opcode_table.json numbers its bits. -/
def tableWord (nbits w : Nat) : Word := BitVec.ofNat 32 (w % 2 ^ nbits)

/-- What the decoder reads from an instruction of the opcode table, laid out in memory big-endian. -/
def decodeTableWord (nbits w : Nat) : Option Instr :=
  match decodeBytes (bytesOfWord (tableWord nbits w)) with
  | .ok (i, _) => some i
  | .error _ => none

/-! ### The encoder: the six formats of R72 and the numbers of R79 and R80 -/

/-- R-type, and the shift form of I-type with `shamt` in the place of `rs2`. -/
def encodeR (f7 : BitVec 7) (rs2 rs1 : RegIdx) (f3 : BitVec 3) (rd : RegIdx) (op : BitVec 7) : Word :=
  f7 ++ rs2 ++ rs1 ++ f3 ++ rd ++ op

/-- I-type: `imm[11:0] rs1 funct3 rd opcode`. -/
def encodeI (imm : Word) (rs1 : RegIdx) (f3 : BitVec 3) (rd : RegIdx) (op : BitVec 7) : Word :=
  imm.extractLsb' 0 12 ++ rs1 ++ f3 ++ rd ++ op

/-- S-type: `imm[11:5] rs2 rs1 funct3 imm[4:0] opcode`. -/
def encodeS (imm : Word) (rs2 rs1 : RegIdx) (f3 : BitVec 3) (op : BitVec 7) : Word :=
  imm.extractLsb' 5 7 ++ rs2 ++ rs1 ++ f3 ++ imm.extractLsb' 0 5 ++ op

/-- B-type: `imm[12|10:5] rs2 rs1 funct3 imm[4:1|11] opcode`. -/
def encodeB (imm : Word) (rs2 rs1 : RegIdx) (f3 : BitVec 3) (op : BitVec 7) : Word :=
  imm.extractLsb' 12 1 ++ imm.extractLsb' 5 6 ++ rs2 ++ rs1 ++ f3 ++ imm.extractLsb' 1 4 ++
    imm.extractLsb' 11 1 ++ op

/-- U-type: `imm[31:12] rd opcode`. -/
def encodeU (imm : Word) (rd : RegIdx) (op : BitVec 7) : Word :=
  imm.extractLsb' 12 20 ++ rd ++ op

/-- J-type: `imm[20|10:1|11|19:12] rd opcode`. -/
def encodeJ (imm : Word) (rd : RegIdx) (op : BitVec 7) : Word :=
  imm.extractLsb' 20 1 ++ imm.extractLsb' 1 10 ++ imm.extractLsb' 11 1 ++ imm.extractLsb' 12 8 ++
    rd ++ op

/-- The word of an instruction: its row of R80 in its format of R72. -/
def encode : Instr → Word
  | .lui rd imm => encodeU imm rd 0b0110111#7
  | .auipc rd imm => encodeU imm rd 0b0010111#7
  | .jal rd imm => encodeJ imm rd 0b1101111#7
  | .beq rs1 rs2 imm => encodeB imm rs2 rs1 0b000#3 0b1100011#7
  | .bne rs1 rs2 imm => encodeB imm rs2 rs1 0b001#3 0b1100011#7
  | .blt rs1 rs2 imm => encodeB imm rs2 rs1 0b100#3 0b1100011#7
  | .bge rs1 rs2 imm => encodeB imm rs2 rs1 0b101#3 0b1100011#7
  | .bltu rs1 rs2 imm => encodeB imm rs2 rs1 0b110#3 0b1100011#7
  | .bgeu rs1 rs2 imm => encodeB imm rs2 rs1 0b111#3 0b1100011#7
  | .sb rs1 rs2 imm => encodeS imm rs2 rs1 0b000#3 0b0100011#7
  | .sh rs1 rs2 imm => encodeS imm rs2 rs1 0b001#3 0b0100011#7
  | .sw rs1 rs2 imm => encodeS imm rs2 rs1 0b010#3 0b0100011#7
  | .add rd rs1 rs2 => encodeR 0b0000000#7 rs2 rs1 0b000#3 rd 0b0110011#7
  | .sub rd rs1 rs2 => encodeR 0b0100000#7 rs2 rs1 0b000#3 rd 0b0110011#7
  | .sll rd rs1 rs2 => encodeR 0b0000000#7 rs2 rs1 0b001#3 rd 0b0110011#7
  | .slt rd rs1 rs2 => encodeR 0b0000000#7 rs2 rs1 0b010#3 rd 0b0110011#7
  | .sltu rd rs1 rs2 => encodeR 0b0000000#7 rs2 rs1 0b011#3 rd 0b0110011#7
  | .xor rd rs1 rs2 => encodeR 0b0000000#7 rs2 rs1 0b100#3 rd 0b0110011#7
  | .srl rd rs1 rs2 => encodeR 0b0000000#7 rs2 rs1 0b101#3 rd 0b0110011#7
  | .sra rd rs1 rs2 => encodeR 0b0100000#7 rs2 rs1 0b101#3 rd 0b0110011#7
  | .or rd rs1 rs2 => encodeR 0b0000000#7 rs2 rs1 0b110#3 rd 0b0110011#7
  | .and rd rs1 rs2 => encodeR 0b0000000#7 rs2 rs1 0b111#3 rd 0b0110011#7
  | .lb rd rs1 imm => encodeI imm rs1 0b000#3 rd 0b0000011#7
  | .lh rd rs1 imm => encodeI imm rs1 0b001#3 rd 0b0000011#7
  | .lw rd rs1 imm => encodeI imm rs1 0b010#3 rd 0b0000011#7
  | .lbu rd rs1 imm => encodeI imm rs1 0b100#3 rd 0b0000011#7
  | .lhu rd rs1 imm => encodeI imm rs1 0b101#3 rd 0b0000011#7
  | .addi rd rs1 imm => encodeI imm rs1 0b000#3 rd 0b0010011#7
  | .slti rd rs1 imm => encodeI imm rs1 0b010#3 rd 0b0010011#7
  | .sltiu rd rs1 imm => encodeI imm rs1 0b011#3 rd 0b0010011#7
  | .xori rd rs1 imm => encodeI imm rs1 0b100#3 rd 0b0010011#7
  | .ori rd rs1 imm => encodeI imm rs1 0b110#3 rd 0b0010011#7
  | .andi rd rs1 imm => encodeI imm rs1 0b111#3 rd 0b0010011#7
  | .slli rd rs1 shamt => encodeR 0b0000000#7 shamt rs1 0b001#3 rd 0b0010011#7
  | .srli rd rs1 shamt => encodeR 0b0000000#7 shamt rs1 0b101#3 rd 0b0010011#7
  | .srai rd rs1 shamt => encodeR 0b0100000#7 shamt rs1 0b101#3 rd 0b0010011#7

/-! ### The opcode table as data (R80; spec/opcode_table.json) -/

/-- A row of the opcode table: a word is the row's instruction exactly when `word &&& mask = pattern`. -/
structure OpcodeRow where
  mnemonic : String
  pattern : Word
  mask : Word
  deriving DecidableEq, Repr

/-- Whether a word is the row's instruction. -/
def OpcodeRow.covers (row : OpcodeRow) (w : Word) : Bool := w &&& row.mask == row.pattern

/-- The upper-immediate, jump, branch and store rows of the table. -/
def opcodeRowsControl : List OpcodeRow :=
  [ ⟨"LUI", 0x00000037#32, 0x0000007F#32⟩,
    ⟨"AUIPC", 0x00000017#32, 0x0000007F#32⟩,
    ⟨"JAL", 0x0000006F#32, 0x0000007F#32⟩,
    ⟨"BEQ", 0x00000063#32, 0x0000707F#32⟩,
    ⟨"BNE", 0x00001063#32, 0x0000707F#32⟩,
    ⟨"BLT", 0x00004063#32, 0x0000707F#32⟩,
    ⟨"BGE", 0x00005063#32, 0x0000707F#32⟩,
    ⟨"BLTU", 0x00006063#32, 0x0000707F#32⟩,
    ⟨"BGEU", 0x00007063#32, 0x0000707F#32⟩,
    ⟨"SB", 0x00000023#32, 0x0000707F#32⟩,
    ⟨"SH", 0x00001023#32, 0x0000707F#32⟩,
    ⟨"SW", 0x00002023#32, 0x0000707F#32⟩ ]

/-- The register-register rows of the table. -/
def opcodeRowsRegister : List OpcodeRow :=
  [ ⟨"ADD", 0x00000033#32, 0xFE00707F#32⟩,
    ⟨"SUB", 0x40000033#32, 0xFE00707F#32⟩,
    ⟨"SLL", 0x00001033#32, 0xFE00707F#32⟩,
    ⟨"SLT", 0x00002033#32, 0xFE00707F#32⟩,
    ⟨"SLTU", 0x00003033#32, 0xFE00707F#32⟩,
    ⟨"XOR", 0x00004033#32, 0xFE00707F#32⟩,
    ⟨"SRL", 0x00005033#32, 0xFE00707F#32⟩,
    ⟨"SRA", 0x40005033#32, 0xFE00707F#32⟩,
    ⟨"OR", 0x00006033#32, 0xFE00707F#32⟩,
    ⟨"AND", 0x00007033#32, 0xFE00707F#32⟩ ]

/-- The load and register-immediate rows of the table. -/
def opcodeRowsImmediate : List OpcodeRow :=
  [ ⟨"LB", 0x00000003#32, 0x0000707F#32⟩,
    ⟨"LH", 0x00001003#32, 0x0000707F#32⟩,
    ⟨"LW", 0x00002003#32, 0x0000707F#32⟩,
    ⟨"LBU", 0x00004003#32, 0x0000707F#32⟩,
    ⟨"LHU", 0x00005003#32, 0x0000707F#32⟩,
    ⟨"ADDI", 0x00000013#32, 0x0000707F#32⟩,
    ⟨"SLTI", 0x00002013#32, 0x0000707F#32⟩,
    ⟨"SLTIU", 0x00003013#32, 0x0000707F#32⟩,
    ⟨"XORI", 0x00004013#32, 0x0000707F#32⟩,
    ⟨"ORI", 0x00006013#32, 0x0000707F#32⟩,
    ⟨"ANDI", 0x00007013#32, 0x0000707F#32⟩,
    ⟨"SLLI", 0x00001013#32, 0xFE00707F#32⟩,
    ⟨"SRLI", 0x00005013#32, 0xFE00707F#32⟩,
    ⟨"SRAI", 0x40005013#32, 0xFE00707F#32⟩ ]

/-- The 36 rows of the opcode table, in its order. -/
def opcodeRows : List OpcodeRow := opcodeRowsControl ++ opcodeRowsRegister ++ opcodeRowsImmediate

/-- The mnemonic of an instruction (R80). -/
def mnemonic : Instr → String
  | .lui _ _ => "LUI"
  | .auipc _ _ => "AUIPC"
  | .jal _ _ => "JAL"
  | .beq _ _ _ => "BEQ"
  | .bne _ _ _ => "BNE"
  | .blt _ _ _ => "BLT"
  | .bge _ _ _ => "BGE"
  | .bltu _ _ _ => "BLTU"
  | .bgeu _ _ _ => "BGEU"
  | .sb _ _ _ => "SB"
  | .sh _ _ _ => "SH"
  | .sw _ _ _ => "SW"
  | .add _ _ _ => "ADD"
  | .sub _ _ _ => "SUB"
  | .sll _ _ _ => "SLL"
  | .slt _ _ _ => "SLT"
  | .sltu _ _ _ => "SLTU"
  | .xor _ _ _ => "XOR"
  | .srl _ _ _ => "SRL"
  | .sra _ _ _ => "SRA"
  | .or _ _ _ => "OR"
  | .and _ _ _ => "AND"
  | .lb _ _ _ => "LB"
  | .lh _ _ _ => "LH"
  | .lw _ _ _ => "LW"
  | .lbu _ _ _ => "LBU"
  | .lhu _ _ _ => "LHU"
  | .addi _ _ _ => "ADDI"
  | .slti _ _ _ => "SLTI"
  | .sltiu _ _ _ => "SLTIU"
  | .xori _ _ _ => "XORI"
  | .ori _ _ _ => "ORI"
  | .andi _ _ _ => "ANDI"
  | .slli _ _ _ => "SLLI"
  | .srli _ _ _ => "SRLI"
  | .srai _ _ _ => "SRAI"

end Sys2Proof
end

