-- ==== Sys2Proof/Machine/Ops.lean ====
section
/-! DEFINITION. The shared operations of the machine: registers (spec/10_state.md), memory
(spec/20_memory.md), what a step does when a fault is raised (spec/60_exceptions.md), and the shapes of
effect the instruction families have. -/

namespace Sys2Proof.Machine

/-! ### Registers (R20, R21) -/

/-- The storage index of a register other than `x[0]`. -/
theorem regIndex_lt (r : RegIdx) : r.toNat - 1 < 31 := by have := r.isLt; omega

/-- `x[r]`: `x[0]` reads 0 (R21). -/
def State.readReg (s : State) (r : RegIdx) : Word :=
  if r = 0#5 then 0#32 else s.x[r.toNat - 1]'(regIndex_lt r)

/-- `x[r] <- v`: a write to register 0 is dropped (R21). -/
def State.writeReg (s : State) (r : RegIdx) (v : Word) : State :=
  if r = 0#5 then s else { s with x := s.x.set (r.toNat - 1) v (regIndex_lt r) }

/-! ### Program counter (R24, R25) -/

/-- `pc <- t`. -/
def State.setPc (s : State) (t : Word) : State := { s with pc := t }

/-- The address of the next sequential instruction, modulo `2^32` (R25, R70). -/
def State.pcNext (s : State) : Word := s.pc + 4#32

/-- `pc <- pc + 4`, the default of every instruction (R25). -/
def State.advance (s : State) : State := s.setPc s.pcNext

/-! ### The byte store (R27, R40) -/

/-- `mem[a]`: the byte listed at `a`, else 0 (R33). -/
def Memory.get : Memory → Nat → Byte
  | [], _ => 0#8
  | (k, b) :: rest, a => if k = a then b else Memory.get rest a

/-- Forget what is listed at `a`: it then reads 0. -/
def Memory.erase (m : Memory) (a : Nat) : Memory := m.filter (fun c => c.1 != a)

/-- List `b` at `a`, before the first cell with a larger address. -/
def Memory.insert : Memory → Nat → Byte → Memory
  | [], a, b => [(a, b)]
  | (k, c) :: rest, a, b =>
    if a < k then (a, b) :: (k, c) :: rest else (k, c) :: Memory.insert rest a b

/-- `mem[a] <- b`, keeping the canonical form: the cells stay sorted, and a zero byte is not listed. -/
def Memory.set (m : Memory) (a : Nat) (b : Byte) : Memory :=
  if b = 0#8 then m.erase a else (m.erase a).insert a b

/-- The canonical form from the lower bound `lo` on: addresses strictly rising, all in
`lo .. size - 1`, no zero byte listed. -/
def Memory.wfFrom (size : Nat) : Nat → Memory → Bool
  | _, [] => true
  | lo, (k, b) :: rest =>
    decide (lo ≤ k) && decide (k < size) && (b != 0#8) && Memory.wfFrom size (k + 1) rest

/-- The canonical form of a memory of `size` bytes. -/
def Memory.wf (size : Nat) (m : Memory) : Bool := Memory.wfFrom size 0 m

/-- The big-endian value of the `n` bytes at `a`: `mem[a]` most significant (R44 to R46, R48). -/
def Memory.read (m : Memory) (a : Nat) : (n : Width) → BitVec n.bits
  | .byte => m.get a
  | .half => m.get a ++ m.get (a + 1)
  | .word => m.get a ++ m.get (a + 1) ++ m.get (a + 2) ++ m.get (a + 3)

/-- Write the `n` bytes at `a`, most significant first (R44, R46, R49). -/
def Memory.write (m : Memory) (a : Nat) : (n : Width) → BitVec n.bits → Memory
  | .byte, v => m.set a v
  | .half, v => (m.set a (v.extractLsb' 8 8)).set (a + 1) (v.extractLsb' 0 8)
  | .word, v =>
    (((m.set a (v.extractLsb' 24 8)).set (a + 1) (v.extractLsb' 16 8)).set (a + 2)
      (v.extractLsb' 8 8)).set (a + 3) (v.extractLsb' 0 8)

/-! ### The two primitives, with the bounds check over the whole span (R48, R49, R50) -/

/-- `MemRead(addr, n)` (R48). -/
def State.memRead (s : State) (addr : Word) (n : Width) : Except Fault (BitVec n.bits) :=
  if addr.toNat + n.bytes > s.cfg.memSize then .error (.boundsViolation addr n)
  else .ok (s.mem.read addr.toNat n)

/-- `MemWrite(addr, n, v)`: the check comes before any byte is written (R49). -/
def State.memWrite (s : State) (addr : Word) (n : Width) (v : BitVec n.bits) : Except Fault State :=
  if addr.toNat + n.bytes > s.cfg.memSize then .error (.boundsViolation addr n)
  else .ok { s with mem := s.mem.write addr.toNat n v }

/-- The instruction fetch: `MemRead(pc, 4)`, no alignment check (R56). -/
def State.fetch (s : State) : Except Fault Word := s.memRead s.pc .word

/-! ### Faults (R203, R204). There is no return from a fault (R208): only reset leaves it. -/

/-- Take a fault: `fault` is set, nothing else changes; `pc` keeps the address of the faulting
instruction (R203). -/
def State.takeFault (s : State) (f : Fault) : State := { s with fault := some f }

/-- The end of a step from `s` whose execution answered `o`: a raised fault is taken in `s`, so that
nothing the execution did remains (R203, R236). -/
def settle (s : State) (o : Host.Outcome State Fault Refusal) : Host.Outcome State Fault Refusal :=
  match o with
  | .next t => .next t
  | .fault f => .next (s.takeFault f)
  | .refused r => .refused r

/-- Apply `g` to the next state of an outcome. -/
def mapNext (g : State → State) (o : Host.Outcome State Fault Refusal) :
    Host.Outcome State Fault Refusal :=
  match o with
  | .next t => .next (g t)
  | .fault f => .fault f
  | .refused r => .refused r

/-! ### The shapes of effect of the families -/

/-- `x[rd] <- v; pc <- pc + 4`: what the upper-immediate and ALU families do with their result (R100,
R101, R141, R170). -/
def writeResult (rd : RegIdx) (v : Word) (s : State) : Host.Outcome State Fault Refusal :=
  .next (s.writeReg rd v).advance

/-- `x[rd] <- pc + 4; pc <- target`: both from the `pc` of the jump itself (R110). -/
def jumpAndLink (rd : RegIdx) (target : Word) (s : State) : Host.Outcome State Fault Refusal :=
  .next ((s.writeReg rd s.pcNext).setPc target)

/-- `pc <- target` if the condition holds, else `pc <- pc + 4` (R120). -/
def branchIf (taken : Bool) (target : Word) (s : State) : Host.Outcome State Fault Refusal :=
  .next (if taken then s.setPc target else s.advance)

/-- A load: `v <- MemRead(addr, n); x[rd] <- ext(v); pc <- pc + 4`. The access is made and checked
whatever `rd` is (R160, decision D28). -/
def loadFrom (addr : Word) (n : Width) (ext : BitVec n.bits → Word) (rd : RegIdx) (s : State) :
    Host.Outcome State Fault Refusal :=
  match s.memRead addr n with
  | .ok v => writeResult rd (ext v) s
  | .error f => .fault f

/-- A store: `MemWrite(addr, n, v[8n-1:0]); pc <- pc + 4` (R130, decision D7). -/
def storeTo (addr : Word) (n : Width) (v : Word) (s : State) : Host.Outcome State Fault Refusal :=
  match s.memWrite addr n (v.extractLsb' 0 n.bits) with
  | .ok t => .next t.advance
  | .error f => .fault f

/-! ### A word that is no instruction (R190, R191) -/

/-- An unrecognised word at `pc`: raises `IllegalInstruction(pc, w)` under `fault`, only advances `pc`
under `skip`. -/
def execUnrecognised (w : Word) (s : State) : Host.Outcome State Fault Refusal :=
  match s.cfg.illegalPolicy with
  | .fault => .fault (.illegalInstruction s.pc w)
  | .skip => .next s.advance

/-- The bytes of `v` placed at `pc`, where the fetch reads them; unchanged if `pc` is out of bounds. -/
def State.placeAtPc (s : State) (v : Word) : State :=
  match s.memWrite s.pc .word v with
  | .ok t => t
  | .error _ => s

end Sys2Proof.Machine
end

