-- ==== Sys2Proof/Machine/Operands.lean ====
section
/-! DEFINITION. Every operand form of the 36 instructions: the register, the base plus offset, the
pc-relative target and the register shift amount. The immediates themselves are in Decode.lean; an
instruction carries its immediate already extended (R170). -/

namespace Sys2Proof.Machine

/-- `addr <- x[rs1] + imm`, modulo `2^32`: the one addressing mode of loads and stores (R130, R160). -/
def State.baseOffset (s : State) (rs1 : RegIdx) (imm : Word) : Word := s.readReg rs1 + imm

/-- `pc + imm`, modulo `2^32`, `pc` the address of the instruction itself: AUIPC's sum and every branch
and jump target (R101, R110, R120). -/
def State.pcRelative (s : State) (imm : Word) : Word := s.pc + imm

/-- The shift amount of SLL, SRL and SRA: `x[rs2][4:0]` (R153, decision D5). -/
def State.shiftAmount (s : State) (rs2 : RegIdx) : BitVec 5 := (s.readReg rs2).extractLsb' 0 5

end Sys2Proof.Machine
end

