-- ==== Sys2Proof/Machine/AluImmediate.lean ====
section
/-! DEFINITION. The nine register-immediate ALU instructions (spec/46_alu_immediate.md R170 to R179).
`imm` is `immI`, already sign-extended to 32 bits; there is no subtract-immediate (decision D17). -/

namespace Sys2Proof.Machine

/-- ADDI (R171): `a + i` modulo `2^32`. -/
def execAddi (rd rs1 : RegIdx) (imm : Word) (s : State) : Host.Outcome State Fault Refusal :=
  writeResult rd (s.readReg rs1 + imm) s

/-- SLTI (R172): 1 if `s(a) < s(i)`, else 0. -/
def execSlti (rd rs1 : RegIdx) (imm : Word) (s : State) : Host.Outcome State Fault Refusal :=
  writeResult rd (oneIf (lessSigned (s.readReg rs1) imm)) s

/-- SLTIU (R173): 1 if `u(a) < u(i)`, else 0, `i` the sign-extended immediate read as unsigned. -/
def execSltiu (rd rs1 : RegIdx) (imm : Word) (s : State) : Host.Outcome State Fault Refusal :=
  writeResult rd (oneIf (lessUnsigned (s.readReg rs1) imm)) s

/-- XORI (R174): bitwise exclusive or. -/
def execXori (rd rs1 : RegIdx) (imm : Word) (s : State) : Host.Outcome State Fault Refusal :=
  writeResult rd (s.readReg rs1 ^^^ imm) s

/-- ORI (R175): bitwise or. -/
def execOri (rd rs1 : RegIdx) (imm : Word) (s : State) : Host.Outcome State Fault Refusal :=
  writeResult rd (s.readReg rs1 ||| imm) s

/-- ANDI (R176): bitwise and. -/
def execAndi (rd rs1 : RegIdx) (imm : Word) (s : State) : Host.Outcome State Fault Refusal :=
  writeResult rd (s.readReg rs1 &&& imm) s

/-- SLLI (R177): `a << shamt`. -/
def execSlli (rd rs1 : RegIdx) (shamt : BitVec 5) (s : State) : Host.Outcome State Fault Refusal :=
  writeResult rd (shiftLeft (s.readReg rs1) shamt) s

/-- SRLI (R178): `a >>u shamt`. -/
def execSrli (rd rs1 : RegIdx) (shamt : BitVec 5) (s : State) : Host.Outcome State Fault Refusal :=
  writeResult rd (shiftRightLogical (s.readReg rs1) shamt) s

/-- SRAI (R179): `a >>s shamt`. -/
def execSrai (rd rs1 : RegIdx) (shamt : BitVec 5) (s : State) : Host.Outcome State Fault Refusal :=
  writeResult rd (shiftRightArith (s.readReg rs1) shamt) s

end Sys2Proof.Machine
end

