-- ==== Sys2Proof/Machine/AluRegister.lean ====
section
/-! DEFINITION. The ten register-register ALU instructions (spec/44_alu_register.md R140 to R153). Both
sources are read before `rd` is written (R141). -/

namespace Sys2Proof.Machine

/-- ADD (R142): `a + b` modulo `2^32`. -/
def execAdd (rd rs1 rs2 : RegIdx) (s : State) : Host.Outcome State Fault Refusal :=
  writeResult rd (s.readReg rs1 + s.readReg rs2) s

/-- SUB (R143): `a - b` modulo `2^32`. -/
def execSub (rd rs1 rs2 : RegIdx) (s : State) : Host.Outcome State Fault Refusal :=
  writeResult rd (s.readReg rs1 - s.readReg rs2) s

/-- SLL (R144): `a << b[4:0]`. -/
def execSll (rd rs1 rs2 : RegIdx) (s : State) : Host.Outcome State Fault Refusal :=
  writeResult rd (shiftLeft (s.readReg rs1) (s.shiftAmount rs2)) s

/-- SLT (R145): 1 if `s(a) < s(b)`, else 0. -/
def execSlt (rd rs1 rs2 : RegIdx) (s : State) : Host.Outcome State Fault Refusal :=
  writeResult rd (oneIf (lessSigned (s.readReg rs1) (s.readReg rs2))) s

/-- SLTU (R146): 1 if `u(a) < u(b)`, else 0. -/
def execSltu (rd rs1 rs2 : RegIdx) (s : State) : Host.Outcome State Fault Refusal :=
  writeResult rd (oneIf (lessUnsigned (s.readReg rs1) (s.readReg rs2))) s

/-- XOR (R147): bitwise exclusive or. -/
def execXor (rd rs1 rs2 : RegIdx) (s : State) : Host.Outcome State Fault Refusal :=
  writeResult rd (s.readReg rs1 ^^^ s.readReg rs2) s

/-- SRL (R148): `a >>u b[4:0]`. -/
def execSrl (rd rs1 rs2 : RegIdx) (s : State) : Host.Outcome State Fault Refusal :=
  writeResult rd (shiftRightLogical (s.readReg rs1) (s.shiftAmount rs2)) s

/-- SRA (R149): `a >>s b[4:0]`. -/
def execSra (rd rs1 rs2 : RegIdx) (s : State) : Host.Outcome State Fault Refusal :=
  writeResult rd (shiftRightArith (s.readReg rs1) (s.shiftAmount rs2)) s

/-- OR (R150): bitwise or. -/
def execOr (rd rs1 rs2 : RegIdx) (s : State) : Host.Outcome State Fault Refusal :=
  writeResult rd (s.readReg rs1 ||| s.readReg rs2) s

/-- AND (R151): bitwise and. -/
def execAnd (rd rs1 rs2 : RegIdx) (s : State) : Host.Outcome State Fault Refusal :=
  writeResult rd (s.readReg rs1 &&& s.readReg rs2) s

end Sys2Proof.Machine
end

