-- ==== Sys2Proof/Machine/Branch.lean ====
section
/-! DEFINITION. The six conditional branches (spec/42_branch.md R120 to R126). -/

namespace Sys2Proof.Machine

/-- BEQ (R121): taken when `a = b`. -/
def execBeq (rs1 rs2 : RegIdx) (imm : Word) (s : State) : Host.Outcome State Fault Refusal :=
  branchIf (equalBits (s.readReg rs1) (s.readReg rs2)) (s.pcRelative imm) s

/-- BNE (R122): taken when `a != b`. -/
def execBne (rs1 rs2 : RegIdx) (imm : Word) (s : State) : Host.Outcome State Fault Refusal :=
  branchIf (!equalBits (s.readReg rs1) (s.readReg rs2)) (s.pcRelative imm) s

/-- BLT (R123): taken when `s(a) < s(b)`. -/
def execBlt (rs1 rs2 : RegIdx) (imm : Word) (s : State) : Host.Outcome State Fault Refusal :=
  branchIf (lessSigned (s.readReg rs1) (s.readReg rs2)) (s.pcRelative imm) s

/-- BGE (R124): taken when `s(a) >= s(b)`. -/
def execBge (rs1 rs2 : RegIdx) (imm : Word) (s : State) : Host.Outcome State Fault Refusal :=
  branchIf (!lessSigned (s.readReg rs1) (s.readReg rs2)) (s.pcRelative imm) s

/-- BLTU (R125): taken when `u(a) < u(b)`. -/
def execBltu (rs1 rs2 : RegIdx) (imm : Word) (s : State) : Host.Outcome State Fault Refusal :=
  branchIf (lessUnsigned (s.readReg rs1) (s.readReg rs2)) (s.pcRelative imm) s

/-- BGEU (R126): taken when `u(a) >= u(b)`. -/
def execBgeu (rs1 rs2 : RegIdx) (imm : Word) (s : State) : Host.Outcome State Fault Refusal :=
  branchIf (!lessUnsigned (s.readReg rs1) (s.readReg rs2)) (s.pcRelative imm) s

end Sys2Proof.Machine
end

