-- ==== Sys2Proof/Machine/Jump.lean ====
section
/-! DEFINITION. JAL (spec/41_jump.md). -/

namespace Sys2Proof.Machine

/-- JAL (R110): `x[rd] <- pc + 4; pc <- pc + immJ`. The target is not checked here. -/
def execJal (rd : RegIdx) (imm : Word) (s : State) : Host.Outcome State Fault Refusal :=
  jumpAndLink rd (s.pcRelative imm) s

end Sys2Proof.Machine
end

