-- ==== Sys2Proof/Machine/Load.lean ====
section
/-! DEFINITION. The five loads (spec/45_load.md R160 to R165). -/

namespace Sys2Proof.Machine

/-- LB (R161): one byte, sign-extended, from `x[rs1] + immI`. -/
def execLb (rd rs1 : RegIdx) (imm : Word) (s : State) : Host.Outcome State Fault Refusal :=
  loadFrom (s.baseOffset rs1 imm) .byte sext rd s

/-- LH (R162): two bytes big-endian, sign-extended, from `x[rs1] + immI`. -/
def execLh (rd rs1 : RegIdx) (imm : Word) (s : State) : Host.Outcome State Fault Refusal :=
  loadFrom (s.baseOffset rs1 imm) .half sext rd s

/-- LW (R163): four bytes big-endian, from `x[rs1] + immI`. -/
def execLw (rd rs1 : RegIdx) (imm : Word) (s : State) : Host.Outcome State Fault Refusal :=
  loadFrom (s.baseOffset rs1 imm) .word zext rd s

/-- LBU (R164): one byte, zero-extended, from `x[rs1] + immI`. -/
def execLbu (rd rs1 : RegIdx) (imm : Word) (s : State) : Host.Outcome State Fault Refusal :=
  loadFrom (s.baseOffset rs1 imm) .byte zext rd s

/-- LHU (R165): two bytes big-endian, zero-extended, from `x[rs1] + immI`. -/
def execLhu (rd rs1 : RegIdx) (imm : Word) (s : State) : Host.Outcome State Fault Refusal :=
  loadFrom (s.baseOffset rs1 imm) .half zext rd s

end Sys2Proof.Machine
end

