-- ==== Sys2Proof/Machine/Store.lean ====
section
/-! DEFINITION. The three stores (spec/43_store.md R130 to R133). -/

namespace Sys2Proof.Machine

/-- SB (R131): `mem[addr] <- x[rs2][7:0]`, at `x[rs1] + immS`. -/
def execSb (rs1 rs2 : RegIdx) (imm : Word) (s : State) : Host.Outcome State Fault Refusal :=
  storeTo (s.baseOffset rs1 imm) .byte (s.readReg rs2) s

/-- SH (R132): the low 16 bits of `x[rs2]`, big-endian, at `x[rs1] + immS`. -/
def execSh (rs1 rs2 : RegIdx) (imm : Word) (s : State) : Host.Outcome State Fault Refusal :=
  storeTo (s.baseOffset rs1 imm) .half (s.readReg rs2) s

/-- SW (R133): `x[rs2]`, big-endian, at `x[rs1] + immS`. -/
def execSw (rs1 rs2 : RegIdx) (imm : Word) (s : State) : Host.Outcome State Fault Refusal :=
  storeTo (s.baseOffset rs1 imm) .word (s.readReg rs2) s

end Sys2Proof.Machine
end

