-- ==== Sys2Proof/Machine/Step.lean ====
section
/-! DEFINITION. One step of the machine (spec/00_scope.md R11, spec/70_reset_and_hazards.md R236). -/

namespace Sys2Proof.Machine

/-- The order of R236: a faulted machine does nothing; fetch; decode; execute; a fault raised by any of
them is taken in the state before the step (R203, R206). -/
def step (s : State) : Host.Outcome State Fault Refusal :=
  if s.fault.isSome then .next s
  else match s.fetch with
    | .error f => settle s (.fault f)
    | .ok w =>
      match decode w with
      | .error _ => settle s (execUnrecognised w s)
      | .ok i => settle s (exec i s)

/-- `s` with an instruction of the opcode table stored at `pc`, where `step` fetches: its bits numbered
as the table numbers them, laid out big-endian. Nothing else changes (log 10). -/
def State.withFetchWord (s : State) (nbits w : Nat) : State := s.placeAtPc (tableWord nbits w)

end Sys2Proof.Machine
end

