-- ==== Sys2Proof/Machine/HostPort.lean ====
section
/-! DEFINITION. What the host may do to the machine: reset, program load, step trigger
(spec/70_reset_and_hazards.md R230, R238, R239, R241, R244). -/

namespace Sys2Proof.Machine

/-- The machine as its host sees it: the state of the machine (the outputs `state` and `fault` of R244 are
read off it, with no effect) and whether a step was triggered since the last reset, which decides whether
the input `load` is legal (R241, R244). The second is no state of the machine: no instruction reads or
writes it (R32; log 8). -/
structure Session where
  machine : State
  stepped : Bool
  deriving DecidableEq, Repr

/-- The session that starts with the reset of a machine with the parameters `c`. -/
def Session.start (c : Config) : Session := { machine := State.resetWith c, stepped := false }

/-- `reset`: the state of R33, from any state, a faulted one included; the parameters stay (R230). -/
def hostReset (s : State) : State := State.resetWith s.cfg

/-- What `LoadWord(index, value)` does to the machine: the word at byte address `4 * index`, big-endian. Out
of range it is refused and writes nothing (R238, decision D20). When it is legal is `hostAct`'s to say. -/
def loadWord (index : Nat) (value : Word) (s : State) : Host.Outcome State Fault Refusal :=
  if 4 * index + Width.word.bytes > s.cfg.memSize then .refused (.loadBoundsViolation (4 * index) .word)
  else .next { s with mem := s.mem.write (4 * index) .word value }

/-- The input signals of the block (R244). Reading the state has no effect and is no action (R241). -/
inductive HostAction where
  /-- `reset`, legal at any time. -/
  | reset
  /-- `load(index, value)`, legal after reset and before the first step. -/
  | load (index : Nat) (value : Word)
  /-- `step`: one trigger, one step (R239). -/
  | trigger
  deriving DecidableEq, Repr

/-- An outcome of the machine as an outcome of the session, whose phase is then `stepped`. -/
def inSession (stepped : Bool) (o : Host.Outcome State Fault Refusal) :
    Host.Outcome Session Fault Refusal :=
  match o with
  | .next t => .next { machine := t, stepped := stepped }
  | .fault f => .fault f
  | .refused r => .refused r

/-- The effect of one action of the host, by the rows of R241: `reset` at any time; `load` before the first
step, refused after it (R244; spec/93_implementation_defined.md U13); one step for each trigger. -/
def hostAct (a : HostAction) (h : Session) : Host.Outcome Session Fault Refusal :=
  match a with
  | .reset => inSession false (.next (hostReset h.machine))
  | .load index value =>
    if h.stepped then .refused (.loadAfterFirstStep index)
    else inSession false (loadWord index value h.machine)
  | .trigger => inSession true (step h.machine)

/-- The session after an action of the host: a refused load is not performed and leaves it as it was (R238). -/
def hostNext (h : Session) (a : HostAction) : Session :=
  match hostAct a h with
  | .next k => k
  | .fault _ => h
  | .refused _ => h

/-- The session after a sequence of actions of the host. -/
def hostRun (actions : List HostAction) (h : Session) : Session := actions.foldl hostNext h

end Sys2Proof.Machine
end

