-- ==== Sys2Proof/Safety.lean ====
section
/-! DEFINITION. What counts as a safe run, and the terms the claims about this machine are stated in:
the fault a state raises (spec/60_exceptions.md R206), the invariant every step keeps, the end-of-run
convention (spec/70_reset_and_hazards.md R240), and the frames of the instructions. -/

namespace Sys2Proof.Machine

/-! ### Faults a state raises -/

/-- The data access an instruction makes in `s`: its address and width; none but the loads and stores
make one (R43, R130, R160). -/
def dataAccess (s : State) : Instr → Option (Word × Width)
  | .lui _ _ => none
  | .auipc _ _ => none
  | .jal _ _ => none
  | .beq _ _ _ => none
  | .bne _ _ _ => none
  | .blt _ _ _ => none
  | .bge _ _ _ => none
  | .bltu _ _ _ => none
  | .bgeu _ _ _ => none
  | .sb rs1 _ imm => some (s.readReg rs1 + imm, .byte)
  | .sh rs1 _ imm => some (s.readReg rs1 + imm, .half)
  | .sw rs1 _ imm => some (s.readReg rs1 + imm, .word)
  | .add _ _ _ => none
  | .sub _ _ _ => none
  | .sll _ _ _ => none
  | .slt _ _ _ => none
  | .sltu _ _ _ => none
  | .xor _ _ _ => none
  | .srl _ _ _ => none
  | .sra _ _ _ => none
  | .or _ _ _ => none
  | .and _ _ _ => none
  | .lb _ rs1 imm => some (s.readReg rs1 + imm, .byte)
  | .lh _ rs1 imm => some (s.readReg rs1 + imm, .half)
  | .lw _ rs1 imm => some (s.readReg rs1 + imm, .word)
  | .lbu _ rs1 imm => some (s.readReg rs1 + imm, .byte)
  | .lhu _ rs1 imm => some (s.readReg rs1 + imm, .half)
  | .addi _ _ _ => none
  | .slti _ _ _ => none
  | .sltiu _ _ _ => none
  | .xori _ _ _ => none
  | .ori _ _ _ => none
  | .andi _ _ _ => none
  | .slli _ _ _ => none
  | .srli _ _ _ => none
  | .srai _ _ _ => none

/-- An access with a byte outside memory, as integers (R50). -/
def outOfBounds (s : State) (addr : Word) (n : Width) : Prop :=
  addr.toNat + n.bytes > s.cfg.memSize

/-- The word at `pc`, as the fetch reads it when it is in bounds (R56). -/
def wordAtPc (s : State) : Word := s.mem.read s.pc.toNat .word

/-- The fault an unfaulted machine in this state raises at its next step, in the order of R206: fetch
bounds, illegal instruction, data bounds. -/
def raisedFault (s : State) : Option Fault :=
  if s.pc.toNat + 4 > s.cfg.memSize then some (.boundsViolation s.pc .word)
  else
    match decode (wordAtPc s) with
    | .error _ =>
      if s.cfg.illegalPolicy = .fault then some (.illegalInstruction s.pc (wordAtPc s)) else none
    | .ok i =>
      match dataAccess s i with
      | some (addr, n) =>
        if addr.toNat + n.bytes > s.cfg.memSize then some (.boundsViolation addr n) else none
      | none => none

/-! ### Control flow -/

/-- The `pc` an instruction goes on at: the control-flow multiplexer of R25, with the six comparisons of
R121 to R126 written on the readings `u` and `s` of R10. -/
def controlFlow (s : State) : Instr → Word
  | .jal _ imm => s.pc + imm
  | .beq rs1 rs2 imm => if s.readReg rs1 = s.readReg rs2 then s.pc + imm else s.pc + 4#32
  | .bne rs1 rs2 imm => if s.readReg rs1 ≠ s.readReg rs2 then s.pc + imm else s.pc + 4#32
  | .blt rs1 rs2 imm =>
    if (s.readReg rs1).toInt < (s.readReg rs2).toInt then s.pc + imm else s.pc + 4#32
  | .bge rs1 rs2 imm =>
    if (s.readReg rs1).toInt ≥ (s.readReg rs2).toInt then s.pc + imm else s.pc + 4#32
  | .bltu rs1 rs2 imm =>
    if (s.readReg rs1).toNat < (s.readReg rs2).toNat then s.pc + imm else s.pc + 4#32
  | .bgeu rs1 rs2 imm =>
    if (s.readReg rs1).toNat ≥ (s.readReg rs2).toNat then s.pc + imm else s.pc + 4#32
  | .lui _ _ | .auipc _ _ => s.pc + 4#32
  | .sb _ _ _ | .sh _ _ _ | .sw _ _ _ => s.pc + 4#32
  | .add _ _ _ | .sub _ _ _ | .sll _ _ _ | .slt _ _ _ | .sltu _ _ _ => s.pc + 4#32
  | .xor _ _ _ | .srl _ _ _ | .sra _ _ _ | .or _ _ _ | .and _ _ _ => s.pc + 4#32
  | .lb _ _ _ | .lh _ _ _ | .lw _ _ _ | .lbu _ _ _ | .lhu _ _ _ => s.pc + 4#32
  | .addi _ _ _ | .slti _ _ _ | .sltiu _ _ _ | .xori _ _ _ | .ori _ _ _ | .andi _ _ _ => s.pc + 4#32
  | .slli _ _ _ | .srli _ _ _ | .srai _ _ _ => s.pc + 4#32

/-- The same machine state under another `ILLEGAL_POLICY` (R194). -/
def State.withPolicy (p : IllegalPolicy) (s : State) : State :=
  { s with cfg := { s.cfg with illegalPolicy := p } }

/-! ### The invariant of the machine -/

/-- What every step keeps, from any state that has it: legal parameters (R8), memory in its canonical
form inside the address space (R40), an even `pc` (R26), and a fault status that is the truth about the
state it stands in (R203: the faulting step left everything else as it was). -/
structure State.Inv (s : State) : Prop where
  cfg_wf : s.cfg.wf = true
  mem_wf : s.mem.wf s.cfg.memSize = true
  pc_even : s.pc.getLsbD 0 = false
  fault_true : ∀ f, s.fault = some f → raisedFault s = some f

/-- What every action of the host keeps: the invariant of the machine, and that before the first step the
machine is as reset left it but for the words loaded into memory (R232, R238, R241). -/
structure Session.Inv (h : Session) : Prop where
  machine : h.machine.Inv
  fresh : h.stepped = false → h.machine = { State.resetWith h.machine.cfg with mem := h.machine.mem }

/-! ### The end of a run (R240; log 9) -/

/-- The spec's `HALT_PREDICATE` convention: the word at `pc` is the self-jump `jal x0, 0` and there is no
fault. The hardware detects nothing; any other predicate may take its place (decision D18). -/
def halted (s : State) : Prop :=
  s.fault = none ∧ s.fetch = .ok 0x0000006F#32

/-- A run of `k` steps from `s` is safe when it never faults: every state of it has `fault = none`. -/
def SafeFor : Nat → State → Prop
  | 0, s => s.fault = none
  | k + 1, s => s.fault = none ∧ ∃ t, step s = .next t ∧ SafeFor k t

/-- The first `k` steps from `s` fetch no unrecognised word (R194): every word fetched in bounds decodes. -/
def RecognisedFor : Nat → State → Prop
  | 0, _ => True
  | k + 1, s =>
    (∀ w, s.fetch = .ok w → ∃ i, decode w = .ok i) ∧ ∃ t, step s = .next t ∧ RecognisedFor k t

/-! ### Frames -/

/-- `t` is `s` with `v` written to register `rd` (dropped when `rd` is 0) and `pc` set to `p`: every other
register, every byte of memory, the fault status and the parameters are those of `s`. -/
structure WritesOnly (rd : RegIdx) (v p : Word) (s t : State) : Prop where
  dest : rd ≠ 0#5 → t.readReg rd = v
  others : ∀ r, r ≠ rd → t.readReg r = s.readReg r
  zero : t.readReg 0#5 = 0#32
  pc : t.pc = p
  mem : ∀ a, t.mem.get a = s.mem.get a
  fault : t.fault = s.fault
  cfg : t.cfg = s.cfg

/-- `t` is `s` with `pc` set to `p` and nothing else changed. -/
structure MovesOnly (p : Word) (s t : State) : Prop where
  regs : ∀ r, t.readReg r = s.readReg r
  pc : t.pc = p
  mem : ∀ a, t.mem.get a = s.mem.get a
  fault : t.fault = s.fault
  cfg : t.cfg = s.cfg

/-- `t` is `s` after a store of the bytes `bytes` to consecutive ascending addresses from `a` on: those
bytes hold the new values, every other byte and everything but `pc` is as before, and `pc` is the next
instruction. -/
structure StoresOnly (a : Nat) (bytes : List Byte) (s t : State) : Prop where
  stored : ∀ k (h : k < bytes.length), t.mem.get (a + k) = bytes[k]
  outside : ∀ b, b < a ∨ a + bytes.length ≤ b → t.mem.get b = s.mem.get b
  regs : ∀ r, t.readReg r = s.readReg r
  pc : t.pc = s.pc + 4#32
  fault : t.fault = s.fault
  cfg : t.cfg = s.cfg

end Sys2Proof.Machine
end

