-- ==== Sys2Proof/Certificates/Slice0/Obligations.lean ====
section
/-! DEFINITION. The statements about this machine, from the numbered rules of spec/. Each docstring names
the rule it formalises. -/

open Sys2Proof Sys2Proof.Machine

/-! ### Reset and the host -/

/-- R33: after reset every register and every byte of memory is 0, `pc` is 0 and there is no fault (which R33
derives from R28; the fault status as state is the spec's decision D11, log 11), for every choice of the
parameters. That they stand in `State.cfg` and that `State.reset` has the defaults of R8 (65536, and `fault`
by decision D1) is the model's choice, log 1 (DESIGN CHOICE). -/
def Obligations.ResetLeavesEverythingZero : Prop :=
  (∀ c : Config,
    (∀ r, (State.resetWith c).readReg r = 0#32) ∧ (State.resetWith c).pc = 0#32 ∧
    (∀ a, (State.resetWith c).mem.get a = 0#8) ∧ (State.resetWith c).fault = none ∧
    (State.resetWith c).cfg = c) ∧
  State.reset = State.resetWith { memSize := 65536, illegalPolicy := .fault }

/-- R230: reset is accepted in every state, a faulted one too and at any time (the spec's decision D26, log 8),
and puts every piece of state at the value of R33: registers and memory 0 (the loaded program is gone), `pc`
0, no fault. Only the parameters stay, and a program may be loaded again. -/
def Obligations.ResetEndsEveryState : Prop :=
  ∀ h : Session, ∃ k, hostAct .reset h = .next k ∧ (∀ r, k.machine.readReg r = 0#32) ∧
    (∀ a, k.machine.mem.get a = 0#8) ∧ k.machine.pc = 0#32 ∧ k.machine.fault = none ∧
    k.machine.cfg = h.machine.cfg ∧ k.stepped = false

/-- R238: a word loaded in range before the first step is the four bytes at `4 * index`, most significant
first, and nothing else changes; out of range the load is refused (the spec's decision D20, log 13). -/
def Obligations.LoadWordPlacesTheWordBigEndian : Prop :=
  ∀ (index : Nat) (v : Word) (s : State),
    (4 * index + 4 ≤ s.cfg.memSize →
      ∃ t, hostAct (.load index v) ⟨s, false⟩ = .next ⟨t, false⟩ ∧
        t.mem.get (4 * index) = v.extractLsb' 24 8 ∧ t.mem.get (4 * index + 1) = v.extractLsb' 16 8 ∧
        t.mem.get (4 * index + 2) = v.extractLsb' 8 8 ∧ t.mem.get (4 * index + 3) = v.extractLsb' 0 8 ∧
        (∀ a, a < 4 * index ∨ 4 * index + 4 ≤ a → t.mem.get a = s.mem.get a) ∧
        (∀ r, t.readReg r = s.readReg r) ∧ t.pc = s.pc ∧ t.fault = s.fault ∧ t.cfg = s.cfg) ∧
    (s.cfg.memSize < 4 * index + 4 →
      hostAct (.load index v) ⟨s, false⟩ = .refused (.loadBoundsViolation (4 * index) .word))

/-- R241 and R244, with U13 (the refusal's name is the model's, log 8): once a step is triggered, every load is
refused and leaves the session as it was, until the next reset, whatever the host does in between. -/
def Obligations.LoadIsRefusedAfterTheFirstStep : Prop :=
  ∀ (before after : List HostAction) (h : Session), .reset ∉ after →
    ∀ (index : Nat) (v : Word),
      hostAct (.load index v) (hostRun (before ++ .trigger :: after) h) =
        .refused (.loadAfterFirstStep index) ∧
      hostRun (before ++ .trigger :: after ++ [.load index v]) h =
        hostRun (before ++ .trigger :: after) h

/-- R239 and R241: a trigger is one step of the machine, in every state and phase, and after it a step has
happened. -/
def Obligations.TriggerIsOneStep : Prop :=
  ∀ h : Session, ∃ t, step h.machine = .next t ∧ hostAct .trigger h = .next ⟨t, true⟩

/-! ### Encoding and decoding -/

/-- R73, R77: every bit of `immI` and `immU`, for every word, and the range of `immI`. -/
def Obligations.ImmIAndImmUBitByBit : Prop :=
  ∀ w : Word,
    (∀ k, k < 32 →
      (immI w).getLsbD k = (if k < 11 then w.getLsbD (k + 20) else w.getLsbD 31) ∧
      (immU w).getLsbD k = (if k < 12 then false else w.getLsbD k)) ∧
    -2048 ≤ (immI w).toInt ∧ (immI w).toInt ≤ 2047

/-- R74 to R76: every bit of `immS`, `immB` and `immJ`, for every word: the field lists read most significant
first, which is the spec's decision D29 (log 5). -/
def Obligations.ImmSImmBImmJBitByBit : Prop :=
  ∀ (w : Word) (k : Nat), k < 32 →
    (immS w).getLsbD k =
      (if k < 5 then w.getLsbD (k + 7) else if k < 11 then w.getLsbD (k + 20) else w.getLsbD 31) ∧
    (immB w).getLsbD k =
      (if k = 0 then false else if k < 5 then w.getLsbD (k + 7) else if k < 11 then w.getLsbD (k + 20)
        else if k = 11 then w.getLsbD 7 else w.getLsbD 31) ∧
    (immJ w).getLsbD k =
      (if k = 0 then false else if k < 11 then w.getLsbD (k + 20) else if k = 11 then w.getLsbD 20
        else if k < 20 then w.getLsbD k else w.getLsbD 31)

/-- R74 to R76: the ranges of the other signed immediates, and that branch and jump offsets are even. -/
def Obligations.OffsetRangesAndEvenness : Prop :=
  ∀ w : Word,
    (-2048 ≤ (immS w).toInt ∧ (immS w).toInt ≤ 2047) ∧
    (-4096 ≤ (immB w).toInt ∧ (immB w).toInt ≤ 4094 ∧ (immB w).toInt % 2 = 0) ∧
    (-1048576 ≤ (immJ w).toInt ∧ (immJ w).toInt ≤ 1048574 ∧ (immJ w).toInt % 2 = 0)

/-- Words written out bit by bit from R72 and R80, one or more of each format, decode to the instruction
they stand for; the first is the source's own example word. -/
def Obligations.SampleWordsDecode : Prop :=
  decode 0b00010010001101000101_00001_0110111#32 = .ok (.lui 1 0x12345000#32) ∧
  decode 0b1_1111111100_1_11111111_00001_1101111#32 = .ok (.jal 1 (-8)) ∧
  decode 0b1_111111_00000_00010_001_1100_1_1100011#32 = .ok (.bne 2 0 (-8)) ∧
  decode 0b1111111_00001_00010_010_11100_0100011#32 = .ok (.sw 2 1 (-4)) ∧
  decode 0b0100000_00010_00101_000_01100_0110011#32 = .ok (.sub 12 5 2) ∧
  decode 0b111011111100_00010_010_00101_0000011#32 = .ok (.lw 5 2 (-260)) ∧
  decode 0b010000000000_00101_000_01100_0010011#32 = .ok (.addi 12 5 1024) ∧
  decode 0b0100000_00001_00100_101_01100_0010011#32 = .ok (.srai 12 4 1)

/-- R81: for every row of the decode procedure, a word with the row's opcode, `funct3` and `funct7` decodes
to the row's instruction with the fields of its format. The numbers are the spec's, from general knowledge
(decision D16, log 5); `funct7` is decoded as its decisions D3 and D4 say, `shamt` is `w[24:20]` (R82). -/
def Obligations.DecoderReadsTheFieldsOfEveryRow : Prop :=
  ∀ w : Word,
    (opcodeOf w = 0b0110111#7 →
      decode w = .ok (.lui (rdOf w) (immU w))) ∧
    (opcodeOf w = 0b0010111#7 →
      decode w = .ok (.auipc (rdOf w) (immU w))) ∧
    (opcodeOf w = 0b1101111#7 →
      decode w = .ok (.jal (rdOf w) (immJ w))) ∧
    (opcodeOf w = 0b1100011#7 → funct3Of w = 0b000#3 →
      decode w = .ok (.beq (rs1Of w) (rs2Of w) (immB w))) ∧
    (opcodeOf w = 0b1100011#7 → funct3Of w = 0b001#3 →
      decode w = .ok (.bne (rs1Of w) (rs2Of w) (immB w))) ∧
    (opcodeOf w = 0b1100011#7 → funct3Of w = 0b100#3 →
      decode w = .ok (.blt (rs1Of w) (rs2Of w) (immB w))) ∧
    (opcodeOf w = 0b1100011#7 → funct3Of w = 0b101#3 →
      decode w = .ok (.bge (rs1Of w) (rs2Of w) (immB w))) ∧
    (opcodeOf w = 0b1100011#7 → funct3Of w = 0b110#3 →
      decode w = .ok (.bltu (rs1Of w) (rs2Of w) (immB w))) ∧
    (opcodeOf w = 0b1100011#7 → funct3Of w = 0b111#3 →
      decode w = .ok (.bgeu (rs1Of w) (rs2Of w) (immB w))) ∧
    (opcodeOf w = 0b0100011#7 → funct3Of w = 0b000#3 →
      decode w = .ok (.sb (rs1Of w) (rs2Of w) (immS w))) ∧
    (opcodeOf w = 0b0100011#7 → funct3Of w = 0b001#3 →
      decode w = .ok (.sh (rs1Of w) (rs2Of w) (immS w))) ∧
    (opcodeOf w = 0b0100011#7 → funct3Of w = 0b010#3 →
      decode w = .ok (.sw (rs1Of w) (rs2Of w) (immS w))) ∧
    (opcodeOf w = 0b0110011#7 → funct3Of w = 0b000#3 → funct7Of w = 0b0000000#7 →
      decode w = .ok (.add (rdOf w) (rs1Of w) (rs2Of w))) ∧
    (opcodeOf w = 0b0110011#7 → funct3Of w = 0b000#3 → funct7Of w = 0b0100000#7 →
      decode w = .ok (.sub (rdOf w) (rs1Of w) (rs2Of w))) ∧
    (opcodeOf w = 0b0110011#7 → funct3Of w = 0b010#3 → funct7Of w = 0b0000000#7 →
      decode w = .ok (.slt (rdOf w) (rs1Of w) (rs2Of w))) ∧
    (opcodeOf w = 0b0110011#7 → funct3Of w = 0b011#3 → funct7Of w = 0b0000000#7 →
      decode w = .ok (.sltu (rdOf w) (rs1Of w) (rs2Of w))) ∧
    (opcodeOf w = 0b0110011#7 → funct3Of w = 0b100#3 → funct7Of w = 0b0000000#7 →
      decode w = .ok (.xor (rdOf w) (rs1Of w) (rs2Of w))) ∧
    (opcodeOf w = 0b0110011#7 → funct3Of w = 0b110#3 → funct7Of w = 0b0000000#7 →
      decode w = .ok (.or (rdOf w) (rs1Of w) (rs2Of w))) ∧
    (opcodeOf w = 0b0110011#7 → funct3Of w = 0b111#3 → funct7Of w = 0b0000000#7 →
      decode w = .ok (.and (rdOf w) (rs1Of w) (rs2Of w))) ∧
    (opcodeOf w = 0b0110011#7 → funct3Of w = 0b001#3 → funct7Of w = 0b0000000#7 →
      decode w = .ok (.sll (rdOf w) (rs1Of w) (rs2Of w))) ∧
    (opcodeOf w = 0b0110011#7 → funct3Of w = 0b101#3 → funct7Of w = 0b0000000#7 →
      decode w = .ok (.srl (rdOf w) (rs1Of w) (rs2Of w))) ∧
    (opcodeOf w = 0b0110011#7 → funct3Of w = 0b101#3 → funct7Of w = 0b0100000#7 →
      decode w = .ok (.sra (rdOf w) (rs1Of w) (rs2Of w))) ∧
    (opcodeOf w = 0b0000011#7 → funct3Of w = 0b000#3 →
      decode w = .ok (.lb (rdOf w) (rs1Of w) (immI w))) ∧
    (opcodeOf w = 0b0000011#7 → funct3Of w = 0b001#3 →
      decode w = .ok (.lh (rdOf w) (rs1Of w) (immI w))) ∧
    (opcodeOf w = 0b0000011#7 → funct3Of w = 0b010#3 →
      decode w = .ok (.lw (rdOf w) (rs1Of w) (immI w))) ∧
    (opcodeOf w = 0b0000011#7 → funct3Of w = 0b100#3 →
      decode w = .ok (.lbu (rdOf w) (rs1Of w) (immI w))) ∧
    (opcodeOf w = 0b0000011#7 → funct3Of w = 0b101#3 →
      decode w = .ok (.lhu (rdOf w) (rs1Of w) (immI w))) ∧
    (opcodeOf w = 0b0010011#7 → funct3Of w = 0b000#3 →
      decode w = .ok (.addi (rdOf w) (rs1Of w) (immI w))) ∧
    (opcodeOf w = 0b0010011#7 → funct3Of w = 0b010#3 →
      decode w = .ok (.slti (rdOf w) (rs1Of w) (immI w))) ∧
    (opcodeOf w = 0b0010011#7 → funct3Of w = 0b011#3 →
      decode w = .ok (.sltiu (rdOf w) (rs1Of w) (immI w))) ∧
    (opcodeOf w = 0b0010011#7 → funct3Of w = 0b100#3 →
      decode w = .ok (.xori (rdOf w) (rs1Of w) (immI w))) ∧
    (opcodeOf w = 0b0010011#7 → funct3Of w = 0b110#3 →
      decode w = .ok (.ori (rdOf w) (rs1Of w) (immI w))) ∧
    (opcodeOf w = 0b0010011#7 → funct3Of w = 0b111#3 →
      decode w = .ok (.andi (rdOf w) (rs1Of w) (immI w))) ∧
    (opcodeOf w = 0b0010011#7 → funct3Of w = 0b001#3 → funct7Of w = 0b0000000#7 →
      decode w = .ok (.slli (rdOf w) (rs1Of w) (shamtOf w))) ∧
    (opcodeOf w = 0b0010011#7 → funct3Of w = 0b101#3 → funct7Of w = 0b0000000#7 →
      decode w = .ok (.srli (rdOf w) (rs1Of w) (shamtOf w))) ∧
    (opcodeOf w = 0b0010011#7 → funct3Of w = 0b101#3 → funct7Of w = 0b0100000#7 →
      decode w = .ok (.srai (rdOf w) (rs1Of w) (shamtOf w)))

/-- Decoding the encoding of a well-formed instruction gives the instruction back, for all 36 and every
operand value the encoding admits (the numbers are the spec's decision D16, log 5). -/
def Obligations.DecodeOfEncodeIsTheInstruction : Prop :=
  ∀ i : Instr, i.wf = true → decode (encode i) = .ok i

/-- Encoding what a word decodes to gives the word back: the decoder drops no bit of a recognised word. -/
def Obligations.EncodeOfDecodeIsTheWord : Prop :=
  ∀ (w : Word) (i : Instr), decode w = .ok i → encode i = w

/-- What the decoder answers is well formed. -/
def Obligations.DecodedInstructionIsWellFormed : Prop :=
  ∀ (w : Word) (i : Instr), decode w = .ok i → i.wf = true

/-- R80: a word decodes to an instruction of a row exactly when the row's opcode and selector bits stand in
it, row by row of the opcode table, whose numbers are the spec's decision D16 (log 5). -/
def Obligations.DecoderAgreesWithTheOpcodeTable : Prop :=
  ∀ w : Word,
    (∀ row ∈ opcodeRows, row.covers w = true → ∃ i, decode w = .ok i ∧ mnemonic i = row.mnemonic) ∧
    (∀ i, decode w = .ok i → ∃ row ∈ opcodeRows, row.covers w = true ∧ mnemonic i = row.mnemonic)

/-- No word is the instruction of two rows of the opcode table. -/
def Obligations.OpcodeRowsDoNotOverlap : Prop :=
  ∀ (w : Word) (p q : OpcodeRow), p ∈ opcodeRows → q ∈ opcodeRows → p.covers w = true →
    q.covers w = true → p = q

/-- R83, which the spec derives from R81: the unrecognised words, class by class (a) to (f). That (b) to (f)
are unrecognised is the spec's decisions D2 and D3 (log 2, log 5). -/
def Obligations.UnrecognisedWordsAreTheSpecsSixClasses : Prop :=
  ∀ w : Word,
    (∃ e, decode w = .error e) ↔
      (opcodeOf w ≠ 0b0110111#7 ∧ opcodeOf w ≠ 0b0010111#7 ∧ opcodeOf w ≠ 0b1101111#7 ∧
        opcodeOf w ≠ 0b1100011#7 ∧ opcodeOf w ≠ 0b0100011#7 ∧ opcodeOf w ≠ 0b0110011#7 ∧
        opcodeOf w ≠ 0b0000011#7 ∧ opcodeOf w ≠ 0b0010011#7) ∨
      (opcodeOf w = 0b1100011#7 ∧ (funct3Of w = 0b010#3 ∨ funct3Of w = 0b011#3)) ∨
      (opcodeOf w = 0b0100011#7 ∧ 3 ≤ (funct3Of w).toNat) ∨
      (opcodeOf w = 0b0000011#7 ∧
        (funct3Of w = 0b011#3 ∨ funct3Of w = 0b110#3 ∨ funct3Of w = 0b111#3)) ∨
      (opcodeOf w = 0b0110011#7 ∧ funct7Of w ≠ 0b0000000#7 ∧
        ¬ (funct7Of w = 0b0100000#7 ∧ (funct3Of w = 0b000#3 ∨ funct3Of w = 0b101#3))) ∨
      (opcodeOf w = 0b0010011#7 ∧
        ((funct3Of w = 0b001#3 ∧ funct7Of w ≠ 0b0000000#7) ∨
          (funct3Of w = 0b101#3 ∧ funct7Of w ≠ 0b0000000#7 ∧ funct7Of w ≠ 0b0100000#7)))

/-! ### Registers -/

/-- R21: register 0 reads 0 whatever is written to it, a write to it changes nothing, and every other
register reads what was last written to it. -/
def Obligations.RegisterZeroReadsZeroAndDropsWrites : Prop :=
  ∀ (s : State) (r q : RegIdx) (v : Word),
    s.readReg 0#5 = 0#32 ∧ s.writeReg 0#5 v = s ∧
    (s.writeReg r v).readReg q = if q = r ∧ r ≠ 0#5 then v else s.readReg q

/-- R21 (and R84, derived from it; D28 for loads): register 0 reads 0, and an instruction whose `rd` is 0 does
everything the same instruction with another `rd` does, faults included, but for the register write. -/
def Obligations.DestinationZeroDropsOnlyTheRegisterWrite : Prop :=
  ∀ (i : Instr) (rd : RegIdx) (s : State),
    s.readReg 0#5 = 0#32 ∧
    exec (i.withDest 0#5) s = mapNext (fun t => { t with x := s.x }) (exec (i.withDest rd) s)

/-- R22: a register that is no source of an instruction has no influence on it: writing it before is
writing it after (or nothing, where the instruction itself writes it). -/
def Obligations.UnreadRegisterHasNoInfluence : Prop :=
  ∀ (i : Instr) (s : State) (r : RegIdx) (v : Word), r ∉ i.sources →
    exec i (s.writeReg r v) =
      mapNext (fun t => if i.dest = some r then t else t.writeReg r v) (exec i s)

/-- R22: a step changes no register but the destination of the instruction it runs, and never `x[0]`. -/
def Obligations.OnlyTheDestinationRegisterChanges : Prop :=
  ∀ (s t : State) (r : RegIdx), step s = .next t → t.readReg r ≠ s.readReg r →
    r ≠ 0#5 ∧ s.fault = none ∧ ∃ i, decode (wordAtPc s) = .ok i ∧ i.dest = some r

/-! ### Upper immediate and jump -/

/-- R100: LUI. -/
def Obligations.LuiLoadsTheUpperImmediate : Prop :=
  (∀ w : Word, opcodeOf w = 0b0110111#7 →
    decode w = .ok (.lui (rdOf w) (w.extractLsb' 12 20 ++ 0#12))) ∧
  ∀ (rd : RegIdx) (imm : Word) (s : State),
    ∃ t, exec (.lui rd imm) s = .next t ∧ WritesOnly rd imm (s.pc + 4#32) s t

/-- R101: AUIPC adds its immediate to its own `pc`, modulo `2^32`. -/
def Obligations.AuipcAddsTheUpperImmediateToPc : Prop :=
  ∀ (rd : RegIdx) (imm : Word) (s : State),
    ∃ t, exec (.auipc rd imm) s = .next t ∧
      WritesOnly rd (BitVec.ofNat 32 (s.pc.toNat + imm.toNat)) (s.pc + 4#32) s t

/-- R110: JAL links and jumps, both from its own `pc`, and checks nothing (decision D24); a target outside
memory faults at the next step, when the link is already written. That the next step checks its fetch (R56)
is the spec's decision D22, over the whole span by D10 (log 12), and that it then changes nothing but the
fault status (R203) its decision D11 (log 11). -/
def Obligations.JalLinksAndJumps : Prop :=
  ∀ (rd : RegIdx) (imm : Word) (s : State),
    ∃ t, exec (.jal rd imm) s = .next t ∧ WritesOnly rd (s.pc + 4#32) (s.pc + imm) s t ∧
      (s.fault = none → s.cfg.memSize < (s.pc + imm).toNat + 4 →
        step t = .next (t.takeFault (.boundsViolation (s.pc + imm) .word)))

/-! ### Branches -/

/-- R121, R122: BEQ and BNE, both arms; nothing but `pc` changes. -/
def Obligations.EqualityBranches : Prop :=
  ∀ (rs1 rs2 : RegIdx) (imm : Word) (s : State),
    (∃ t, exec (.beq rs1 rs2 imm) s = .next t ∧
      MovesOnly (if s.readReg rs1 = s.readReg rs2 then s.pc + imm else s.pc + 4#32) s t) ∧
    (∃ t, exec (.bne rs1 rs2 imm) s = .next t ∧
      MovesOnly (if s.readReg rs1 = s.readReg rs2 then s.pc + 4#32 else s.pc + imm) s t)

/-- R123, R124: BLT and BGE compare the two's complement readings. -/
def Obligations.SignedBranches : Prop :=
  ∀ (rs1 rs2 : RegIdx) (imm : Word) (s : State),
    (∃ t, exec (.blt rs1 rs2 imm) s = .next t ∧
      MovesOnly (if (s.readReg rs1).toInt < (s.readReg rs2).toInt then s.pc + imm else s.pc + 4#32)
        s t) ∧
    (∃ t, exec (.bge rs1 rs2 imm) s = .next t ∧
      MovesOnly (if (s.readReg rs1).toInt ≥ (s.readReg rs2).toInt then s.pc + imm else s.pc + 4#32)
        s t)

/-- R125, R126: BLTU and BGEU compare the unsigned readings. -/
def Obligations.UnsignedBranches : Prop :=
  ∀ (rs1 rs2 : RegIdx) (imm : Word) (s : State),
    (∃ t, exec (.bltu rs1 rs2 imm) s = .next t ∧
      MovesOnly (if (s.readReg rs1).toNat < (s.readReg rs2).toNat then s.pc + imm else s.pc + 4#32)
        s t) ∧
    (∃ t, exec (.bgeu rs1 rs2 imm) s = .next t ∧
      MovesOnly (if (s.readReg rs1).toNat ≥ (s.readReg rs2).toNat then s.pc + imm else s.pc + 4#32)
        s t)

/-! ### Stores -/

/-- R130 to R133: a store in bounds writes the low bytes of `x[rs2]` at `x[rs1] + imm` (modulo `2^32`), most
significant byte at the lowest address, at any alignment, and nothing else; with a byte outside memory it
raises `BoundsViolation` with its address and width. The low bytes, the order of a half-word and the check of
the whole span are the spec's decisions D7, D6 and D10 (log 6, log 12). -/
def Obligations.StoresWriteTheLowBytesBigEndianOrRaise : Prop :=
  ∀ (rs1 rs2 : RegIdx) (imm : Word) (s : State),
    ((s.readReg rs1 + imm).toNat + 1 ≤ s.cfg.memSize →
      ∃ t, exec (.sb rs1 rs2 imm) s = .next t ∧
        StoresOnly (s.readReg rs1 + imm).toNat [(s.readReg rs2).extractLsb' 0 8] s t) ∧
    ((s.readReg rs1 + imm).toNat + 2 ≤ s.cfg.memSize →
      ∃ t, exec (.sh rs1 rs2 imm) s = .next t ∧
        StoresOnly (s.readReg rs1 + imm).toNat
          [(s.readReg rs2).extractLsb' 8 8, (s.readReg rs2).extractLsb' 0 8] s t) ∧
    ((s.readReg rs1 + imm).toNat + 4 ≤ s.cfg.memSize →
      ∃ t, exec (.sw rs1 rs2 imm) s = .next t ∧
        StoresOnly (s.readReg rs1 + imm).toNat
          [(s.readReg rs2).extractLsb' 24 8, (s.readReg rs2).extractLsb' 16 8,
            (s.readReg rs2).extractLsb' 8 8, (s.readReg rs2).extractLsb' 0 8] s t) ∧
    (s.cfg.memSize < (s.readReg rs1 + imm).toNat + 1 →
      exec (.sb rs1 rs2 imm) s = .fault (.boundsViolation (s.readReg rs1 + imm) .byte)) ∧
    (s.cfg.memSize < (s.readReg rs1 + imm).toNat + 2 →
      exec (.sh rs1 rs2 imm) s = .fault (.boundsViolation (s.readReg rs1 + imm) .half)) ∧
    (s.cfg.memSize < (s.readReg rs1 + imm).toNat + 4 →
      exec (.sw rs1 rs2 imm) s = .fault (.boundsViolation (s.readReg rs1 + imm) .word))

/-! ### Register-register ALU -/

/-- R142, R143: ADD and SUB give the low 32 bits of the exact result, with no overflow signal. -/
def Obligations.AddAndSubAreModuloTwoToTheThirtyTwo : Prop :=
  ∀ (rd rs1 rs2 : RegIdx) (s : State),
    (∃ t, exec (.add rd rs1 rs2) s = .next t ∧
      WritesOnly rd (BitVec.ofNat 32 ((s.readReg rs1).toNat + (s.readReg rs2).toNat))
        (s.pc + 4#32) s t) ∧
    (∃ t, exec (.sub rd rs1 rs2) s = .next t ∧
      WritesOnly rd (BitVec.ofInt 32 ((s.readReg rs1).toNat - (s.readReg rs2).toNat : Int))
        (s.pc + 4#32) s t)

/-- R145, R146: SLT and SLTU write a 32-bit 1 or 0. -/
def Obligations.SetLessThanSignedAndUnsigned : Prop :=
  ∀ (rd rs1 rs2 : RegIdx) (s : State),
    (∃ t, exec (.slt rd rs1 rs2) s = .next t ∧
      WritesOnly rd (if (s.readReg rs1).toInt < (s.readReg rs2).toInt then 1#32 else 0#32)
        (s.pc + 4#32) s t) ∧
    (∃ t, exec (.sltu rd rs1 rs2) s = .next t ∧
      WritesOnly rd (if (s.readReg rs1).toNat < (s.readReg rs2).toNat then 1#32 else 0#32)
        (s.pc + 4#32) s t)

/-- R147, R150, R151: XOR, OR and AND, bit by bit. -/
def Obligations.BitwiseOperations : Prop :=
  ∀ (rd rs1 rs2 : RegIdx) (s : State),
    (∃ t v, exec (.xor rd rs1 rs2) s = .next t ∧ WritesOnly rd v (s.pc + 4#32) s t ∧
      ∀ k, v.getLsbD k = ((s.readReg rs1).getLsbD k != (s.readReg rs2).getLsbD k)) ∧
    (∃ t v, exec (.or rd rs1 rs2) s = .next t ∧ WritesOnly rd v (s.pc + 4#32) s t ∧
      ∀ k, v.getLsbD k = ((s.readReg rs1).getLsbD k || (s.readReg rs2).getLsbD k)) ∧
    (∃ t v, exec (.and rd rs1 rs2) s = .next t ∧ WritesOnly rd v (s.pc + 4#32) s t ∧
      ∀ k, v.getLsbD k = ((s.readReg rs1).getLsbD k && (s.readReg rs2).getLsbD k))

/-- R144, R148, R149, R153: SLL, SRL and SRA: the product with the power of two modulo `2^32`, the unsigned
quotient, the floor of the signed quotient. That the amount is the low 5 bits of `x[rs2]` is the spec's
decision D5 (log 7). -/
def Obligations.RegisterShiftsTakeTheAmountModuloThirtyTwo : Prop :=
  ∀ (rd rs1 rs2 : RegIdx) (s : State),
    (∃ t, exec (.sll rd rs1 rs2) s = .next t ∧
      WritesOnly rd (BitVec.ofNat 32 ((s.readReg rs1).toNat * 2 ^ ((s.readReg rs2).toNat % 32)))
        (s.pc + 4#32) s t) ∧
    (∃ t, exec (.srl rd rs1 rs2) s = .next t ∧
      WritesOnly rd (BitVec.ofNat 32 ((s.readReg rs1).toNat / 2 ^ ((s.readReg rs2).toNat % 32)))
        (s.pc + 4#32) s t) ∧
    (∃ t, exec (.sra rd rs1 rs2) s = .next t ∧
      WritesOnly rd
        (BitVec.ofInt 32 (Int.fdiv (s.readReg rs1).toInt (2 ^ ((s.readReg rs2).toNat % 32))))
        (s.pc + 4#32) s t)

/-- R152: the arithmetic right shift is the source's construction (the logical shift, with 1s put in
exactly the vacated bits when the sign bit is set), bit by bit, and the floor of the signed quotient. -/
def Obligations.ArithmeticRightShiftFillsWithTheSign : Prop :=
  ∀ (a : Word) (k : BitVec 5),
    (∀ j, j < 32 → (shiftRightArith a k).getLsbD j =
      if j + k.toNat < 32 then a.getLsbD (j + k.toNat) else a.getLsbD 31) ∧
    shiftRightArith a k =
      (a >>> k.toNat) ||| (if a.getLsbD 31 then ~~~(0xFFFFFFFF#32 >>> k.toNat) else 0#32) ∧
    (shiftRightArith a k).toInt = Int.fdiv a.toInt (2 ^ k.toNat)

/-! ### Loads -/

/-- R160 to R165: a load in bounds writes its bytes, most significant first, sign- or zero-extended, to `rd`
(dropped for `x[0]`), at any alignment, and changes nothing else; with a byte outside memory it raises
`BoundsViolation` with its address and width, whatever `rd` is. The order of a half-word, the check of the
whole span and the access of a load to `x[0]` are the spec's decisions D6, D10 and D28 (log 6, log 12). -/
def Obligations.LoadsWriteTheExtendedBytesOrRaise : Prop :=
  ∀ (rd rs1 : RegIdx) (imm : Word) (s : State),
    ((s.readReg rs1 + imm).toNat + 1 ≤ s.cfg.memSize →
      (∃ t, exec (.lb rd rs1 imm) s = .next t ∧
        WritesOnly rd (BitVec.ofInt 32 (s.mem.get (s.readReg rs1 + imm).toNat).toInt)
          (s.pc + 4#32) s t) ∧
      (∃ t, exec (.lbu rd rs1 imm) s = .next t ∧
        WritesOnly rd (BitVec.ofNat 32 (s.mem.get (s.readReg rs1 + imm).toNat).toNat)
          (s.pc + 4#32) s t)) ∧
    ((s.readReg rs1 + imm).toNat + 2 ≤ s.cfg.memSize →
      (∃ t, exec (.lh rd rs1 imm) s = .next t ∧
        WritesOnly rd
          (BitVec.ofInt 32 (s.mem.get (s.readReg rs1 + imm).toNat ++
            s.mem.get ((s.readReg rs1 + imm).toNat + 1)).toInt) (s.pc + 4#32) s t) ∧
      (∃ t, exec (.lhu rd rs1 imm) s = .next t ∧
        WritesOnly rd
          (BitVec.ofNat 32 ((s.mem.get (s.readReg rs1 + imm).toNat).toNat * 2 ^ 8 +
            (s.mem.get ((s.readReg rs1 + imm).toNat + 1)).toNat)) (s.pc + 4#32) s t)) ∧
    ((s.readReg rs1 + imm).toNat + 4 ≤ s.cfg.memSize →
      ∃ t, exec (.lw rd rs1 imm) s = .next t ∧
        WritesOnly rd
          (BitVec.ofNat 32 ((s.mem.get (s.readReg rs1 + imm).toNat).toNat * 2 ^ 24 +
            (s.mem.get ((s.readReg rs1 + imm).toNat + 1)).toNat * 2 ^ 16 +
            (s.mem.get ((s.readReg rs1 + imm).toNat + 2)).toNat * 2 ^ 8 +
            (s.mem.get ((s.readReg rs1 + imm).toNat + 3)).toNat)) (s.pc + 4#32) s t) ∧
    (s.cfg.memSize < (s.readReg rs1 + imm).toNat + 1 →
      exec (.lb rd rs1 imm) s = .fault (.boundsViolation (s.readReg rs1 + imm) .byte) ∧
      exec (.lbu rd rs1 imm) s = .fault (.boundsViolation (s.readReg rs1 + imm) .byte)) ∧
    (s.cfg.memSize < (s.readReg rs1 + imm).toNat + 2 →
      exec (.lh rd rs1 imm) s = .fault (.boundsViolation (s.readReg rs1 + imm) .half) ∧
      exec (.lhu rd rs1 imm) s = .fault (.boundsViolation (s.readReg rs1 + imm) .half)) ∧
    (s.cfg.memSize < (s.readReg rs1 + imm).toNat + 4 →
      exec (.lw rd rs1 imm) s = .fault (.boundsViolation (s.readReg rs1 + imm) .word))

/-! ### Register-immediate ALU -/

/-- R171 to R173: ADDI adds modulo `2^32`; SLTI compares signed, SLTIU unsigned, with the sign-extended
immediate the instruction carries. -/
def Obligations.AddImmediateAndSetLessThanImmediate : Prop :=
  ∀ (rd rs1 : RegIdx) (imm : Word) (s : State),
    (∃ t, exec (.addi rd rs1 imm) s = .next t ∧
      WritesOnly rd (BitVec.ofNat 32 ((s.readReg rs1).toNat + imm.toNat)) (s.pc + 4#32) s t) ∧
    (∃ t, exec (.slti rd rs1 imm) s = .next t ∧
      WritesOnly rd (if (s.readReg rs1).toInt < imm.toInt then 1#32 else 0#32) (s.pc + 4#32) s t) ∧
    (∃ t, exec (.sltiu rd rs1 imm) s = .next t ∧
      WritesOnly rd (if (s.readReg rs1).toNat < imm.toNat then 1#32 else 0#32) (s.pc + 4#32) s t)

/-- R174 to R176: XORI, ORI and ANDI, bit by bit with the 32-bit immediate the instruction carries. -/
def Obligations.BitwiseImmediateOperations : Prop :=
  ∀ (rd rs1 : RegIdx) (imm : Word) (s : State),
    (∃ t v, exec (.xori rd rs1 imm) s = .next t ∧ WritesOnly rd v (s.pc + 4#32) s t ∧
      ∀ k, v.getLsbD k = ((s.readReg rs1).getLsbD k != imm.getLsbD k)) ∧
    (∃ t v, exec (.ori rd rs1 imm) s = .next t ∧ WritesOnly rd v (s.pc + 4#32) s t ∧
      ∀ k, v.getLsbD k = ((s.readReg rs1).getLsbD k || imm.getLsbD k)) ∧
    (∃ t v, exec (.andi rd rs1 imm) s = .next t ∧ WritesOnly rd v (s.pc + 4#32) s t ∧
      ∀ k, v.getLsbD k = ((s.readReg rs1).getLsbD k && imm.getLsbD k))

/-- R177 to R179: SLLI, SRLI and SRAI shift by their 5-bit `shamt`. Which words they are is
`DecoderReadsTheFieldsOfEveryRow`. -/
def Obligations.ImmediateShifts : Prop :=
  ∀ (rd rs1 : RegIdx) (k : BitVec 5) (s : State),
    (∃ t, exec (.slli rd rs1 k) s = .next t ∧
      WritesOnly rd (BitVec.ofNat 32 ((s.readReg rs1).toNat * 2 ^ k.toNat)) (s.pc + 4#32) s t) ∧
    (∃ t, exec (.srli rd rs1 k) s = .next t ∧
      WritesOnly rd (BitVec.ofNat 32 ((s.readReg rs1).toNat / 2 ^ k.toNat)) (s.pc + 4#32) s t) ∧
    (∃ t, exec (.srai rd rs1 k) s = .next t ∧
      WritesOnly rd (BitVec.ofInt 32 (Int.fdiv (s.readReg rs1).toInt (2 ^ k.toNat)))
        (s.pc + 4#32) s t)

/-! ### Memory -/

/-- R48 (derived by the spec from R44 to R46 and R50; D6 and D10, log 6, log 12): `MemRead` in bounds gives the
bytes, most significant first; out of bounds, over the whole span and with nothing reduced modulo `2^32`, it
raises; the fetch is the word read at `pc`. -/
def Obligations.MemReadIsBigEndianAndBoundsChecked : Prop :=
  ∀ (s : State) (addr : Word),
    (addr.toNat + 1 ≤ s.cfg.memSize → s.memRead addr .byte = .ok (s.mem.get addr.toNat)) ∧
    (addr.toNat + 2 ≤ s.cfg.memSize →
      s.memRead addr .half = .ok (s.mem.get addr.toNat ++ s.mem.get (addr.toNat + 1))) ∧
    (addr.toNat + 4 ≤ s.cfg.memSize →
      s.memRead addr .word = .ok (s.mem.get addr.toNat ++ s.mem.get (addr.toNat + 1) ++
        s.mem.get (addr.toNat + 2) ++ s.mem.get (addr.toNat + 3))) ∧
    (∀ n : Width, s.cfg.memSize < addr.toNat + n.bytes →
      s.memRead addr n = .error (.boundsViolation addr n)) ∧
    s.fetch = s.memRead s.pc .word

/-- R49 (derived by the spec from R44 to R46 and R50; D6 and D10, log 6, log 12): `MemWrite` in bounds puts
byte `i` of the value, counted from the most significant, at `addr + i`, and changes no other byte and nothing
else; out of bounds it raises. -/
def Obligations.MemWriteChangesExactlyItsBytes : Prop :=
  ∀ (s : State) (addr : Word) (n : Width) (v : BitVec n.bits),
    (addr.toNat + n.bytes ≤ s.cfg.memSize →
      ∃ t, s.memWrite addr n v = .ok t ∧
        (∀ i, i < n.bytes →
          t.mem.get (addr.toNat + i) = v.extractLsb' (8 * (n.bytes - i - 1)) 8) ∧
        (∀ b, b < addr.toNat ∨ addr.toNat + n.bytes ≤ b → t.mem.get b = s.mem.get b) ∧
        (∀ r, t.readReg r = s.readReg r) ∧ t.pc = s.pc ∧ t.fault = s.fault ∧ t.cfg = s.cfg) ∧
    (s.cfg.memSize < addr.toNat + n.bytes →
      s.memWrite addr n v = .error (.boundsViolation addr n))

/-- R47 (derived by the spec from R44 to R46; D6, log 6): what narrower accesses see of a word stored at
`addr`, what a word load sees of a byte stored at its first address, and the worked example's bytes. The
premise on `memSize` is the constraint of R8. -/
def Obligations.MixedWidthAccesses : Prop :=
  (∀ (s t : State) (addr : Word) (v : Word), s.cfg.memSize ≤ 2 ^ 32 →
    s.memWrite addr .word v = .ok t →
    t.memRead addr .byte = .ok (v.extractLsb' 24 8) ∧
    t.memRead (addr + 3#32) .byte = .ok (v.extractLsb' 0 8) ∧
    t.memRead addr .half = .ok (v.extractLsb' 16 16) ∧
    t.memRead (addr + 2#32) .half = .ok (v.extractLsb' 0 16) ∧
    t.memRead (addr + 1#32) .half = .ok (v.extractLsb' 8 16) ∧
    t.memRead addr .word = .ok v) ∧
  (∀ (s t : State) (addr : Word) (b : Byte), addr.toNat + 4 ≤ s.cfg.memSize →
    s.memWrite addr .byte b = .ok t →
    ∃ x : Word, t.memRead addr .word = .ok x ∧ x.extractLsb' 24 8 = b) ∧
  ∀ m : Memory,
    (m.write 0 .word 0x123450B7#32).get 0 = 0x12#8 ∧ (m.write 0 .word 0x123450B7#32).get 1 = 0x34#8 ∧
    (m.write 0 .word 0x123450B7#32).get 2 = 0x50#8 ∧ (m.write 0 .word 0x123450B7#32).get 3 = 0xB7#8

/-- The source's round trip (R133, R163): a word stored and then loaded from the same address comes back,
at every address in bounds. -/
def Obligations.StoreWordThenLoadWordRoundTrips : Prop :=
  ∀ (s : State) (rs1 rs2 rd : RegIdx) (imm : Word), rd ≠ 0#5 →
    (s.readReg rs1 + imm).toNat + 4 ≤ s.cfg.memSize →
    ∃ t u, exec (.sw rs1 rs2 imm) s = .next t ∧ exec (.lw rd rs1 imm) t = .next u ∧
      u.readReg rd = s.readReg rs2

/-- The model's own form of memory (log 4, DESIGN CHOICE; no rule of the spec): it is canonical, so that two
well-formed memories of one size that read the same at every address are equal data. -/
def Obligations.CanonicalMemoriesThatReadAlikeAreEqual : Prop :=
  ∀ (size : Nat) (m m' : Memory), m.wf size = true → m'.wf size = true →
    (∀ a, m.get a = m'.get a) → m = m'

/-- R43: no step but that of a store changes memory, and then only bytes of the store's access. -/
def Obligations.OnlyStoresChangeMemory : Prop :=
  ∀ (s t : State) (a : Nat), step s = .next t → t.mem.get a ≠ s.mem.get a →
    s.fault = none ∧ ∃ i addr n, decode (wordAtPc s) = .ok i ∧ mnemonic i ∈ ["SB", "SH", "SW"] ∧
      dataAccess s i = some (addr, n) ∧ addr.toNat ≤ a ∧ a < addr.toNat + n.bytes

/-- R57: a word stored over the next instruction is what the very next fetch reads. -/
def Obligations.StoredWordIsFetchedNext : Prop :=
  ∀ (s t : State) (rs1 rs2 : RegIdx) (imm : Word),
    exec (.sw rs1 rs2 imm) s = .next t → s.readReg rs1 + imm = s.pc + 4#32 →
    t.fetch = .ok (s.readReg rs2)

/-! ### The step and its faults -/

/-- R11 and R236: where the word at `pc` is in bounds and decodes, the step of an unfaulted machine is the
execution of that instruction; a fault it raises is taken in the state before the step. -/
def Obligations.StepRunsTheDecodedInstruction : Prop :=
  ∀ (s : State) (w : Word) (i : Instr), s.fault = none → s.fetch = .ok w → decode w = .ok i →
    (∀ t, exec i s = .next t → step s = .next t) ∧
    (∀ f, exec i s = .fault f → step s = .next (s.takeFault f))

/-- R56: the fetch reads the four bytes at `pc`, most significant first, at any `pc` in bounds; out of
bounds it faults with `BoundsViolation(pc, 4)` and the step does nothing else. That the fetch is checked is
the spec's decision D22 (log 12). -/
def Obligations.FetchReadsTheWordAtPcOrFaults : Prop :=
  ∀ s : State,
    (s.pc.toNat + 4 ≤ s.cfg.memSize →
      s.fetch = .ok (s.mem.get s.pc.toNat ++ s.mem.get (s.pc.toNat + 1) ++
        s.mem.get (s.pc.toNat + 2) ++ s.mem.get (s.pc.toNat + 3))) ∧
    (s.fault = none → s.cfg.memSize < s.pc.toNat + 4 →
      step s = .next { s with fault := some (.boundsViolation s.pc .word) })

/-- R190, the policy the spec's decision D1 adopts (log 2): an unrecognised word under `fault`: the fault is
recorded, nothing else changes, and no further step does anything. -/
def Obligations.UnrecognisedWordFaultsUnderFault : Prop :=
  ∀ (s : State) (w : Word) (e : Unrecognised), s.fault = none → s.cfg.illegalPolicy = .fault →
    s.fetch = .ok w → decode w = .error e →
    ∃ t, step s = .next t ∧ t = { s with fault := some (.illegalInstruction s.pc w) } ∧
      step t = .next t

/-- R191: an unrecognised word under `skip` only advances `pc`, and under this policy no step raises
`IllegalInstruction`. For a known opcode with other selectors that is the spec's decision D2 (log 2). -/
def Obligations.UnrecognisedWordIsSkippedUnderSkip : Prop :=
  ∀ s : State, s.fault = none → s.cfg.illegalPolicy = .skip →
    (∀ (w : Word) (e : Unrecognised), s.fetch = .ok w → decode w = .error e →
      step s = .next { s with pc := s.pc + 4#32 }) ∧
    ∀ (t : State) (pc w : Word), step s = .next t → t.fault ≠ some (.illegalInstruction pc w)

/-- R204: a faulted machine steps to itself, however often it is triggered, and no action of the host but
reset leaves the faulted state. -/
def Obligations.FaultIsTerminal : Prop :=
  ∀ (s : State) (f : Fault), s.fault = some f →
    step s = .next s ∧ (∀ k, Sys2Proof.core.run k s = .next s) ∧
    ∀ (a : HostAction) (b : Bool) (k : Session), hostAct a ⟨s, b⟩ = .next k →
      k.machine.fault ≠ some f → a = .reset

/-- R7: a step has exactly three outcomes: no change of a faulted machine (R204); the next state, unfaulted; or
a fault, after which no step does anything. That the fault is set in the state before the step and nothing
else changes is R203, the spec's decision D11, and that `step` answers a next state in every case, so that
every run answers a state, is the model's choice (log 11, DESIGN CHOICE). -/
def Obligations.StepHasExactlyThreeOutcomes : Prop :=
  (∀ s : State, ∃ t, step s = .next t ∧
    ((s.fault ≠ none ∧ t = s) ∨ (s.fault = none ∧ t.fault = none) ∨
      (s.fault = none ∧ ∃ f, t = s.takeFault f ∧ step t = .next t))) ∧
  ∀ (k : Nat) (s : State), ∃ t, Sys2Proof.core.run k s = .next t

/-- R203 and R206 (the spec's decisions D11 and D23, log 11): what an unfaulted machine's step raises is the
first fault in the order fetch bounds, illegal instruction, data bounds, and a step that raises one changes
nothing but the fault status. -/
def Obligations.FaultingStepIsPreciseAndInPriorityOrder : Prop :=
  ∀ s t : State, s.fault = none → step s = .next t →
    t.fault = raisedFault s ∧ ∀ f, t.fault = some f → t = { s with fault := some f }

/-- R25: the next `pc` of every step of an unfaulted machine; that the sums wrap is the spec's decision D21
(log 12). -/
def Obligations.NextPcIsTheControlFlowMultiplexers : Prop :=
  ∀ s t : State, s.fault = none → step s = .next t →
    t.pc =
      if (raisedFault s).isSome then s.pc
      else match decode (wordAtPc s) with
        | .error _ => s.pc + 4#32
        | .ok i => controlFlow s i

/-- R28 (the fault status as state is the spec's decision D11, log 11): no step changes a fault status other
than `none`, and a step from `none` leaves `none` or sets the fault it raises; only reset returns it to
`none`, and it is `none` after reset. -/
def Obligations.FaultStatusIsSetByAFaultingStepOnly : Prop :=
  State.reset.fault = none ∧
  (∀ s t : State, step s = .next t →
    t.fault = match s.fault with
      | some f => some f
      | none => raisedFault s) ∧
  ∀ (a : HostAction) (h k : Session), hostAct a h = .next k → h.machine.fault ≠ none →
    k.machine.fault = none → a = .reset

/-- R194 (derived by the spec from R190 and R191): the parameters are fixed for a run, and the machines of the
two policies agree on every run that never fetches an unrecognised word. -/
def Obligations.PoliciesAgreeOnRecognisedRuns : Prop :=
  (∀ s t : State, step s = .next t → t.cfg = s.cfg) ∧
  ∀ (k : Nat) (s : State) (p : IllegalPolicy), RecognisedFor k s →
    Sys2Proof.core.run k (s.withPolicy p) = mapNext (State.withPolicy p) (Sys2Proof.core.run k s)

/-- R240 and R110: at the self-jump `jal x0, 0`, the end-of-run convention of the spec's decision D18 (log 9),
the state is a fixed point of the step, and no later step faults. -/
def Obligations.SelfJumpIsAFixedPoint : Prop :=
  ∀ s : State, halted s → step s = .next s ∧ ∀ k, SafeFor k s

/-- An instruction of the opcode table placed with `withFetchWord` is what the next step of an unfaulted
machine runs, in the state that holds it (the model's own host interface, log 10). -/
def Obligations.PlacedInstructionRunsNext : Prop :=
  ∀ (s : State) (nbits w : Nat) (i : Instr), s.fault = none → s.pc.toNat + 4 ≤ s.cfg.memSize →
    decodeTableWord nbits w = some i →
    step (s.withFetchWord nbits w) =
      settle (s.withFetchWord nbits w) (exec i (s.withFetchWord nbits w))

/-! ### The invariant -/

/-- The invariant holds after reset, for every legal choice of the parameters, and the session that starts
there meets its own. -/
def Obligations.ResetMeetsTheInvariant : Prop :=
  State.reset.Inv ∧ ∀ c : Config, c.wf = true → (State.resetWith c).Inv ∧ (Session.start c).Inv

/-- Every step keeps the invariant: legal parameters, canonical memory inside the address space (log 4), an
even `pc`, a fault status that is the fault the state raises (D11, log 11). -/
def Obligations.StepKeepsTheInvariant : Prop :=
  ∀ s t : State, s.Inv → step s = .next t → t.Inv

/-- Every action of the host keeps the invariant of the session: that of the machine (log 4, log 11), and that
before the first step the machine is as reset left it but for the words loaded (R232, R238, R241). -/
def Obligations.HostActionsKeepTheInvariant : Prop :=
  ∀ (a : HostAction) (h k : Session), h.Inv → hostAct a h = .next k → k.Inv
end

