-- ==== Sys2Proof/Laws/Decode.lean ====
section
/-! SUPPORT. The fields and immediates of an encoded word, and what a successful decoding says of the word:
the lemmas the round trips rest on (spec/30_encoding.md R71 to R77, R81). -/

namespace Sys2Proof

/-- Two bit vectors with the same bits are equal. -/
theorem eq_of_bits {w : Nat} {a b : BitVec w} (h : ∀ k, k < w → a.getLsbD k = b.getLsbD k) : a = b :=
  BitVec.eq_of_getLsbD_eq h

/-! ### The fields of an encoded word, format by format (R72) -/

section Fields

variable (f7 op : BitVec 7) (rs2 rs1 rd : RegIdx) (f3 : BitVec 3) (imm : Word)

@[simp] theorem opcodeOf_encodeR : opcodeOf (encodeR f7 rs2 rs1 f3 rd op) = op := by
  refine eq_of_bits fun k hk => ?_
  simp only [opcodeOf, encodeR, BitVec.getLsbD_extractLsb', BitVec.getLsbD_append]
  interval_cases k <;> simp

@[simp] theorem rdOf_encodeR : rdOf (encodeR f7 rs2 rs1 f3 rd op) = rd := by
  refine eq_of_bits fun k hk => ?_
  simp only [rdOf, encodeR, BitVec.getLsbD_extractLsb', BitVec.getLsbD_append]
  interval_cases k <;> simp

@[simp] theorem funct3Of_encodeR : funct3Of (encodeR f7 rs2 rs1 f3 rd op) = f3 := by
  refine eq_of_bits fun k hk => ?_
  simp only [funct3Of, encodeR, BitVec.getLsbD_extractLsb', BitVec.getLsbD_append]
  interval_cases k <;> simp

@[simp] theorem rs1Of_encodeR : rs1Of (encodeR f7 rs2 rs1 f3 rd op) = rs1 := by
  refine eq_of_bits fun k hk => ?_
  simp only [rs1Of, encodeR, BitVec.getLsbD_extractLsb', BitVec.getLsbD_append]
  interval_cases k <;> simp

@[simp] theorem rs2Of_encodeR : rs2Of (encodeR f7 rs2 rs1 f3 rd op) = rs2 := by
  refine eq_of_bits fun k hk => ?_
  simp only [rs2Of, encodeR, BitVec.getLsbD_extractLsb', BitVec.getLsbD_append]
  interval_cases k <;> simp

@[simp] theorem funct7Of_encodeR : funct7Of (encodeR f7 rs2 rs1 f3 rd op) = f7 := by
  refine eq_of_bits fun k hk => ?_
  simp only [funct7Of, encodeR, BitVec.getLsbD_extractLsb', BitVec.getLsbD_append]
  interval_cases k <;> simp

@[simp] theorem shamtOf_encodeR : shamtOf (encodeR f7 rs2 rs1 f3 rd op) = rs2 := by
  refine eq_of_bits fun k hk => ?_
  simp only [shamtOf, encodeR, BitVec.getLsbD_extractLsb', BitVec.getLsbD_append]
  interval_cases k <;> simp

@[simp] theorem opcodeOf_encodeI : opcodeOf (encodeI imm rs1 f3 rd op) = op := by
  refine eq_of_bits fun k hk => ?_
  simp only [opcodeOf, encodeI, BitVec.getLsbD_extractLsb', BitVec.getLsbD_append]
  interval_cases k <;> simp

@[simp] theorem rdOf_encodeI : rdOf (encodeI imm rs1 f3 rd op) = rd := by
  refine eq_of_bits fun k hk => ?_
  simp only [rdOf, encodeI, BitVec.getLsbD_extractLsb', BitVec.getLsbD_append]
  interval_cases k <;> simp

@[simp] theorem funct3Of_encodeI : funct3Of (encodeI imm rs1 f3 rd op) = f3 := by
  refine eq_of_bits fun k hk => ?_
  simp only [funct3Of, encodeI, BitVec.getLsbD_extractLsb', BitVec.getLsbD_append]
  interval_cases k <;> simp

@[simp] theorem rs1Of_encodeI : rs1Of (encodeI imm rs1 f3 rd op) = rs1 := by
  refine eq_of_bits fun k hk => ?_
  simp only [rs1Of, encodeI, BitVec.getLsbD_extractLsb', BitVec.getLsbD_append]
  interval_cases k <;> simp

@[simp] theorem opcodeOf_encodeS : opcodeOf (encodeS imm rs2 rs1 f3 op) = op := by
  refine eq_of_bits fun k hk => ?_
  simp only [opcodeOf, encodeS, BitVec.getLsbD_extractLsb', BitVec.getLsbD_append]
  interval_cases k <;> simp

@[simp] theorem funct3Of_encodeS : funct3Of (encodeS imm rs2 rs1 f3 op) = f3 := by
  refine eq_of_bits fun k hk => ?_
  simp only [funct3Of, encodeS, BitVec.getLsbD_extractLsb', BitVec.getLsbD_append]
  interval_cases k <;> simp

@[simp] theorem rs1Of_encodeS : rs1Of (encodeS imm rs2 rs1 f3 op) = rs1 := by
  refine eq_of_bits fun k hk => ?_
  simp only [rs1Of, encodeS, BitVec.getLsbD_extractLsb', BitVec.getLsbD_append]
  interval_cases k <;> simp

@[simp] theorem rs2Of_encodeS : rs2Of (encodeS imm rs2 rs1 f3 op) = rs2 := by
  refine eq_of_bits fun k hk => ?_
  simp only [rs2Of, encodeS, BitVec.getLsbD_extractLsb', BitVec.getLsbD_append]
  interval_cases k <;> simp

@[simp] theorem opcodeOf_encodeB : opcodeOf (encodeB imm rs2 rs1 f3 op) = op := by
  refine eq_of_bits fun k hk => ?_
  simp only [opcodeOf, encodeB, BitVec.getLsbD_extractLsb', BitVec.getLsbD_append]
  interval_cases k <;> simp

@[simp] theorem funct3Of_encodeB : funct3Of (encodeB imm rs2 rs1 f3 op) = f3 := by
  refine eq_of_bits fun k hk => ?_
  simp only [funct3Of, encodeB, BitVec.getLsbD_extractLsb', BitVec.getLsbD_append]
  interval_cases k <;> simp

@[simp] theorem rs1Of_encodeB : rs1Of (encodeB imm rs2 rs1 f3 op) = rs1 := by
  refine eq_of_bits fun k hk => ?_
  simp only [rs1Of, encodeB, BitVec.getLsbD_extractLsb', BitVec.getLsbD_append]
  interval_cases k <;> simp

@[simp] theorem rs2Of_encodeB : rs2Of (encodeB imm rs2 rs1 f3 op) = rs2 := by
  refine eq_of_bits fun k hk => ?_
  simp only [rs2Of, encodeB, BitVec.getLsbD_extractLsb', BitVec.getLsbD_append]
  interval_cases k <;> simp

@[simp] theorem opcodeOf_encodeU : opcodeOf (encodeU imm rd op) = op := by
  refine eq_of_bits fun k hk => ?_
  simp only [opcodeOf, encodeU, BitVec.getLsbD_extractLsb', BitVec.getLsbD_append]
  interval_cases k <;> simp

@[simp] theorem rdOf_encodeU : rdOf (encodeU imm rd op) = rd := by
  refine eq_of_bits fun k hk => ?_
  simp only [rdOf, encodeU, BitVec.getLsbD_extractLsb', BitVec.getLsbD_append]
  interval_cases k <;> simp

@[simp] theorem opcodeOf_encodeJ : opcodeOf (encodeJ imm rd op) = op := by
  refine eq_of_bits fun k hk => ?_
  simp only [opcodeOf, encodeJ, BitVec.getLsbD_extractLsb', BitVec.getLsbD_append]
  interval_cases k <;> simp

@[simp] theorem rdOf_encodeJ : rdOf (encodeJ imm rd op) = rd := by
  refine eq_of_bits fun k hk => ?_
  simp only [rdOf, encodeJ, BitVec.getLsbD_extractLsb', BitVec.getLsbD_append]
  interval_cases k <;> simp

end Fields

/-! ### Extension -/

/-- The bits of a sign extension: the value's own, then copies of its top bit (R10). -/
theorem getLsbD_sext {n : Nat} (v : BitVec n) (k : Nat) :
    (sext v).getLsbD k = (decide (k < 32) && if k < n then v.getLsbD k else v.msb) := by
  simp [sext, BitVec.getLsbD_signExtend]

/-- A slice of a sign extension that lies inside the value is that slice of the value. -/
theorem extractLsb'_sext {n lo len : Nat} (v : BitVec n) (h : lo + len ≤ n) (hn : n ≤ 32) :
    (sext v).extractLsb' lo len = v.extractLsb' lo len := by
  refine eq_of_bits fun k hk => ?_
  simp only [BitVec.getLsbD_extractLsb', getLsbD_sext]
  simp [hk, show lo + k < 32 by omega, show lo + k < n by omega]

/-- The sign extension of the low bits of a sign extension is the sign extension. -/
theorem sext_extractLsb'_sext {n : Nat} (v : BitVec n) (hn : n ≤ 32) :
    ((sext v).extractLsb' 0 n).signExtend 32 = sext v := by
  rw [extractLsb'_sext v (by omega) hn]
  simp [sext]

/-! ### What an immediate decoder gives is well formed, and it is the immediate that was encoded -/

section Immediates

variable (op : BitVec 7) (rs2 rs1 rd : RegIdx) (f3 : BitVec 3) {imm : Word} (w : Word)

theorem fitsImm12_immI : fitsImm12 (immI w) = true := by
  simp only [fitsImm12, beq_iff_eq]; exact (sext_extractLsb'_sext _ (by omega)).symm

theorem fitsImm12_immS : fitsImm12 (immS w) = true := by
  simp only [fitsImm12, beq_iff_eq]; exact (sext_extractLsb'_sext _ (by omega)).symm

/-- Bit 0 of a branch offset is zero (R75). -/
theorem immB_bit0 : (immB w).getLsbD 0 = false := by
  simp only [immB, getLsbD_sext, BitVec.getLsbD_append]; simp

/-- Bit 0 of a jump offset is zero (R76). -/
theorem immJ_bit0 : (immJ w).getLsbD 0 = false := by
  simp only [immJ, getLsbD_sext, BitVec.getLsbD_append]; simp

theorem fitsImm13_immB : fitsImm13 (immB w) = true := by
  simp only [fitsImm13, Bool.and_eq_true, beq_iff_eq]
  exact ⟨(sext_extractLsb'_sext _ (by omega)).symm, immB_bit0 w⟩

theorem fitsImm21_immJ : fitsImm21 (immJ w) = true := by
  simp only [fitsImm21, Bool.and_eq_true, beq_iff_eq]
  exact ⟨(sext_extractLsb'_sext _ (by omega)).symm, immJ_bit0 w⟩

theorem fitsImmU_immU : fitsImmU (immU w) = true := by
  simp only [fitsImmU, beq_iff_eq]
  refine eq_of_bits fun k hk => ?_
  simp only [immU, BitVec.getLsbD_extractLsb', BitVec.getLsbD_append]
  interval_cases k <;> simp

theorem immI_encodeI (h : fitsImm12 imm = true) : immI (encodeI imm rs1 f3 rd op) = imm := by
  have e : (encodeI imm rs1 f3 rd op).extractLsb' 20 12 = imm.extractLsb' 0 12 := by
    refine eq_of_bits fun k hk => ?_
    simp only [encodeI, BitVec.getLsbD_extractLsb', BitVec.getLsbD_append]
    interval_cases k <;> simp
  simp only [fitsImm12, beq_iff_eq] at h
  rw [immI, e, sext, ← h]

theorem immS_encodeS (h : fitsImm12 imm = true) : immS (encodeS imm rs2 rs1 f3 op) = imm := by
  have e : (encodeS imm rs2 rs1 f3 op).extractLsb' 25 7 ++
      (encodeS imm rs2 rs1 f3 op).extractLsb' 7 5 = imm.extractLsb' 0 12 := by
    refine eq_of_bits fun k hk => ?_
    simp only [encodeS, BitVec.getLsbD_extractLsb', BitVec.getLsbD_append]
    interval_cases k <;> simp
  simp only [fitsImm12, beq_iff_eq] at h
  rw [immS, e, sext, ← h]

theorem immB_encodeB (h : fitsImm13 imm = true) : immB (encodeB imm rs2 rs1 f3 op) = imm := by
  simp only [fitsImm13, Bool.and_eq_true, beq_iff_eq] at h
  have e : (encodeB imm rs2 rs1 f3 op).extractLsb' 31 1 ++ (encodeB imm rs2 rs1 f3 op).extractLsb' 7 1 ++
      (encodeB imm rs2 rs1 f3 op).extractLsb' 25 6 ++ (encodeB imm rs2 rs1 f3 op).extractLsb' 8 4 ++ 0#1 =
      imm.extractLsb' 0 13 := by
    refine eq_of_bits fun k hk => ?_
    have h0 : imm[0] = false := by simpa using h.2
    simp only [encodeB, BitVec.getLsbD_extractLsb', BitVec.getLsbD_append]
    interval_cases k <;> simp [h0]
  rw [immB, e, sext, ← h.1]

theorem immJ_encodeJ (h : fitsImm21 imm = true) : immJ (encodeJ imm rd op) = imm := by
  simp only [fitsImm21, Bool.and_eq_true, beq_iff_eq] at h
  have e : (encodeJ imm rd op).extractLsb' 31 1 ++ (encodeJ imm rd op).extractLsb' 12 8 ++
      (encodeJ imm rd op).extractLsb' 20 1 ++ (encodeJ imm rd op).extractLsb' 21 10 ++ 0#1 =
      imm.extractLsb' 0 21 := by
    refine eq_of_bits fun k hk => ?_
    have h0 : imm[0] = false := by simpa using h.2
    simp only [encodeJ, BitVec.getLsbD_extractLsb', BitVec.getLsbD_append]
    interval_cases k <;> simp [h0]
  rw [immJ, e, sext, ← h.1]

theorem immU_encodeU (h : fitsImmU imm = true) : immU (encodeU imm rd op) = imm := by
  simp only [fitsImmU, beq_iff_eq] at h
  refine eq_of_bits fun k hk => ?_
  simp only [immU, encodeU, BitVec.getLsbD_extractLsb', BitVec.getLsbD_append]
  by_cases hk' : k < 12
  · have hb := congrArg (fun v => v.getLsbD k) h
    simp only [BitVec.getLsbD_extractLsb', hk', decide_true, Bool.true_and, Nat.zero_add] at hb
    simp [hk', hb]
  · simp only [hk', if_false]
    simp [show k - 12 < 20 by omega, show ¬ 12 + (k - 12) < 7 by omega,
      show ¬ 12 + (k - 12) - 7 < 5 by omega, show 12 + (12 + (k - 12) - 7 - 5) = k by omega,
      show 12 + (k - 12) - 7 - 5 < 20 by omega]

/-! ### Encoding the fields of a word gives the word back -/

theorem encodeR_fields :
    encodeR (funct7Of w) (rs2Of w) (rs1Of w) (funct3Of w) (rdOf w) (opcodeOf w) = w := by
  refine eq_of_bits fun k hk => ?_
  simp only [encodeR, funct7Of, rs2Of, rs1Of, funct3Of, rdOf, opcodeOf, BitVec.getLsbD_extractLsb',
    BitVec.getLsbD_append]
  interval_cases k <;> simp

theorem encodeI_fields :
    encodeI (immI w) (rs1Of w) (funct3Of w) (rdOf w) (opcodeOf w) = w := by
  rw [encodeI, immI, extractLsb'_sext _ (by omega) (by omega)]
  refine eq_of_bits fun k hk => ?_
  simp only [rs1Of, funct3Of, rdOf, opcodeOf, BitVec.getLsbD_extractLsb', BitVec.getLsbD_append]
  interval_cases k <;> simp

theorem encodeS_fields :
    encodeS (immS w) (rs2Of w) (rs1Of w) (funct3Of w) (opcodeOf w) = w := by
  rw [encodeS, immS, extractLsb'_sext _ (by omega) (by omega), extractLsb'_sext _ (by omega) (by omega)]
  refine eq_of_bits fun k hk => ?_
  simp only [rs2Of, rs1Of, funct3Of, opcodeOf, BitVec.getLsbD_extractLsb', BitVec.getLsbD_append]
  interval_cases k <;> simp

theorem encodeB_fields :
    encodeB (immB w) (rs2Of w) (rs1Of w) (funct3Of w) (opcodeOf w) = w := by
  simp only [encodeB, immB]
  rw [extractLsb'_sext _ (by omega) (by omega), extractLsb'_sext _ (by omega) (by omega),
    extractLsb'_sext _ (by omega) (by omega), extractLsb'_sext _ (by omega) (by omega)]
  refine eq_of_bits fun k hk => ?_
  simp only [rs2Of, rs1Of, funct3Of, opcodeOf, BitVec.getLsbD_extractLsb', BitVec.getLsbD_append]
  interval_cases k <;> simp

theorem encodeU_fields : encodeU (immU w) (rdOf w) (opcodeOf w) = w := by
  refine eq_of_bits fun k hk => ?_
  simp only [encodeU, immU, rdOf, opcodeOf, BitVec.getLsbD_extractLsb', BitVec.getLsbD_append]
  interval_cases k <;> simp

theorem encodeJ_fields : encodeJ (immJ w) (rdOf w) (opcodeOf w) = w := by
  simp only [encodeJ, immJ]
  rw [extractLsb'_sext _ (by omega) (by omega), extractLsb'_sext _ (by omega) (by omega),
    extractLsb'_sext _ (by omega) (by omega), extractLsb'_sext _ (by omega) (by omega)]
  refine eq_of_bits fun k hk => ?_
  simp only [rdOf, opcodeOf, BitVec.getLsbD_extractLsb', BitVec.getLsbD_append]
  interval_cases k <;> simp

end Immediates

/-! ### What a successful decoding says of the word (R81) -/

/-- A word that decodes is the encoding of what it decodes to, and that is well formed. -/
structure Decodes (w : Word) (i : Instr) : Prop where
  encode_eq : encode i = w
  wf : i.wf = true

section Inversion

variable {w : Word} {i : Instr}

theorem decodeBranch_ok (hop : opcodeOf w = 0b1100011#7) (h : decodeBranch w = .ok i) : Decodes w i := by
  unfold decodeBranch at h
  have e := encodeB_fields w
  split at h <;> cases h <;>
    exact ⟨by rw [hop, ‹funct3Of w = _›] at e; exact e, fitsImm13_immB w⟩

theorem decodeStore_ok (hop : opcodeOf w = 0b0100011#7) (h : decodeStore w = .ok i) : Decodes w i := by
  unfold decodeStore at h
  have e := encodeS_fields w
  split at h <;> cases h <;>
    exact ⟨by rw [hop, ‹funct3Of w = _›] at e; exact e, fitsImm12_immS w⟩

theorem decodeLoad_ok (hop : opcodeOf w = 0b0000011#7) (h : decodeLoad w = .ok i) : Decodes w i := by
  unfold decodeLoad at h
  have e := encodeI_fields w
  split at h <;> cases h <;>
    exact ⟨by rw [hop, ‹funct3Of w = _›] at e; exact e, fitsImm12_immI w⟩

theorem decodeOp_ok (hop : opcodeOf w = 0b0110011#7) (h : decodeOp w = .ok i) : Decodes w i := by
  unfold decodeOp at h
  have e := encodeR_fields w
  split at h <;> cases h <;>
    exact ⟨by rw [hop, ‹funct3Of w = _›, ‹funct7Of w = _›] at e; exact e, rfl⟩

theorem decodeShiftImm_ok (hop : opcodeOf w = 0b0010011#7) (h : decodeShiftImm w = .ok i) :
    Decodes w i := by
  unfold decodeShiftImm at h
  have e := encodeR_fields w
  split at h <;> cases h <;>
    exact ⟨by rw [hop, ‹funct3Of w = _›, ‹funct7Of w = _›] at e; exact e, rfl⟩

theorem decodeOpImm_ok (hop : opcodeOf w = 0b0010011#7) (h : decodeOpImm w = .ok i) : Decodes w i := by
  unfold decodeOpImm at h
  have e := encodeI_fields w
  split at h
  case h_7 => exact decodeShiftImm_ok hop h
  all_goals
    cases h
    exact ⟨by rw [hop, ‹funct3Of w = _›] at e; exact e, fitsImm12_immI w⟩

/-- The inversion of the decoder. -/
theorem decode_ok (h : decode w = .ok i) : Decodes w i := by
  unfold decode at h
  split at h
  case h_1 hop => cases h; exact ⟨by have e := encodeU_fields w; rw [hop] at e; exact e, fitsImmU_immU w⟩
  case h_2 hop => cases h; exact ⟨by have e := encodeU_fields w; rw [hop] at e; exact e, fitsImmU_immU w⟩
  case h_3 hop => cases h; exact ⟨by have e := encodeJ_fields w; rw [hop] at e; exact e, fitsImm21_immJ w⟩
  case h_4 hop => exact decodeBranch_ok hop h
  case h_5 hop => exact decodeStore_ok hop h
  case h_6 hop => exact decodeOp_ok hop h
  case h_7 hop => exact decodeLoad_ok hop h
  case h_8 hop => exact decodeOpImm_ok hop h
  case h_9 => cases h

end Inversion

/-! ### A word as its bytes -/

/-- A word is the word of its four bytes (R44). -/
theorem wordOfBytes_slices (v : Word) :
    wordOfBytes (v.extractLsb' 24 8) (v.extractLsb' 16 8) (v.extractLsb' 8 8) (v.extractLsb' 0 8) = v := by
  refine eq_of_bits fun k hk => ?_
  simp only [wordOfBytes, BitVec.getLsbD_extractLsb', BitVec.getLsbD_append]
  interval_cases k <;> simp

/-- What the decoder reads from an instruction of the opcode table is what it reads from its word. -/
theorem decodeTableWord_eq (nbits w : Nat) :
    decodeTableWord nbits w = (decode (tableWord nbits w)).toOption := by
  simp only [decodeTableWord, bytesOfWord, decodeBytes, wordOfBytes_slices]
  cases decode (tableWord nbits w) <;> rfl

end Sys2Proof
end

