-- ==== Sys2Proof/Laws/Arith.lean ====
section
/-! SUPPORT. The shifts, the extensions and the joined bytes of the model as arithmetic on integers
(spec/44_alu_register.md R140, R152, R153; spec/20_memory.md R44 to R46). -/

namespace Sys2Proof

/-- A left shift is the product with the power of two, modulo `2^32`. -/
theorem ofNat_mul_two_pow (a : Word) (k : Nat) : BitVec.ofNat 32 (a.toNat * 2 ^ k) = a <<< k := by
  apply BitVec.eq_of_toNat_eq; simp [BitVec.toNat_shiftLeft, Nat.shiftLeft_eq]

/-- A logical right shift is the unsigned quotient. -/
theorem ofNat_div_two_pow (a : Word) (k : Nat) : BitVec.ofNat 32 (a.toNat / 2 ^ k) = a >>> k := by
  apply BitVec.eq_of_toNat_eq
  simp only [BitVec.toNat_ofNat, BitVec.toNat_ushiftRight, Nat.shiftRight_eq_div_pow]
  exact Nat.mod_eq_of_lt (lt_of_le_of_lt (Nat.div_le_self _ _) a.isLt)

/-- An arithmetic right shift is the floor of the signed quotient (R152). -/
theorem toInt_sshiftRight_eq_fdiv (a : Word) (k : Nat) :
    (a.sshiftRight k).toInt = Int.fdiv a.toInt (2 ^ k) := by
  rw [BitVec.toInt_sshiftRight, Int.shiftRight_eq_div_pow, Int.fdiv_eq_ediv_of_nonneg _ (by positivity)]
  norm_cast

theorem ofInt_fdiv_two_pow (a : Word) (k : Nat) :
    BitVec.ofInt 32 (Int.fdiv a.toInt (2 ^ k)) = a.sshiftRight k := by
  rw [← toInt_sshiftRight_eq_fdiv, BitVec.ofInt_toInt]

/-- The sign extension has the signed value of what it extends. -/
theorem ofInt_toInt_eq_sext {n : Nat} (v : BitVec n) : BitVec.ofInt 32 v.toInt = sext v := by
  simp [sext, BitVec.signExtend]

theorem toInt_sext {n : Nat} (v : BitVec n) (h : n ≤ 32) : (sext v).toInt = v.toInt := by
  simp [sext, BitVec.toInt_signExtend_of_le h]

/-- Two bytes joined, the first most significant. -/
theorem toNat_append_bytes2 (a b : Byte) : (a ++ b).toNat = a.toNat * 2 ^ 8 + b.toNat := by
  have := b.isLt
  rw [BitVec.toNat_append, Nat.shiftLeft_eq, Nat.mul_comm, Nat.two_pow_add_eq_or_of_lt (by omega)]

/-- Four bytes joined, the first most significant. -/
theorem toNat_append_bytes4 (a b c d : Byte) :
    (a ++ b ++ c ++ d).toNat = a.toNat * 2 ^ 24 + b.toNat * 2 ^ 16 + c.toNat * 2 ^ 8 + d.toNat := by
  have := b.isLt; have := c.isLt; have := d.isLt
  simp only [BitVec.toNat_append, Nat.shiftLeft_eq]
  rw [Nat.mul_comm _ (2 ^ 8), Nat.mul_comm _ (2 ^ 8), Nat.mul_comm _ (2 ^ 8),
    ← Nat.two_pow_add_eq_or_of_lt (by omega), ← Nat.two_pow_add_eq_or_of_lt (by omega),
    ← Nat.two_pow_add_eq_or_of_lt (by omega)]
  omega

/-- The sum of two even words is even. -/
theorem even_add {a b : Word} (ha : a.getLsbD 0 = false) (hb : b.getLsbD 0 = false) :
    (a + b).getLsbD 0 = false := by
  simp only [BitVec.getLsbD, Nat.testBit_zero, BitVec.toNat_add] at *
  simp at *; omega

/-- A word with bit 0 clear is even as a signed number. -/
theorem toInt_even {a : Word} (h : a.getLsbD 0 = false) : a.toInt % 2 = 0 := by
  have h' : a.toNat % 2 = 0 := by
    simp only [BitVec.getLsbD, Nat.testBit_zero] at h; simpa using h
  rw [BitVec.toInt_eq_toNat_cond]; split <;> omega

end Sys2Proof
end

