-- ==== Sys2Proof/Laws/State.lean ====
section
/-! SUPPORT. One lemma per field per update of the state, so that no later proof unfolds one. -/

namespace Sys2Proof.Width

@[simp] theorem bytes_byte : bytes .byte = 1 := rfl
@[simp] theorem bytes_half : bytes .half = 2 := rfl
@[simp] theorem bytes_word : bytes .word = 4 := rfl

end Sys2Proof.Width

namespace Sys2Proof.Machine.State

variable (s : State) (r : RegIdx) (v p : Word) (f : Fault)

@[simp] theorem setPc_cfg : (s.setPc p).cfg = s.cfg := rfl
@[simp] theorem setPc_x : (s.setPc p).x = s.x := rfl
@[simp] theorem setPc_pc : (s.setPc p).pc = p := rfl
@[simp] theorem setPc_mem : (s.setPc p).mem = s.mem := rfl
@[simp] theorem setPc_fault : (s.setPc p).fault = s.fault := rfl
@[simp] theorem setPc_readReg : (s.setPc p).readReg r = s.readReg r := rfl

@[simp] theorem advance_cfg : s.advance.cfg = s.cfg := rfl
@[simp] theorem advance_x : s.advance.x = s.x := rfl
@[simp] theorem advance_pc : s.advance.pc = s.pc + 4#32 := rfl
@[simp] theorem advance_mem : s.advance.mem = s.mem := rfl
@[simp] theorem advance_fault : s.advance.fault = s.fault := rfl
@[simp] theorem advance_readReg : s.advance.readReg r = s.readReg r := rfl

@[simp] theorem takeFault_cfg : (s.takeFault f).cfg = s.cfg := rfl
@[simp] theorem takeFault_x : (s.takeFault f).x = s.x := rfl
@[simp] theorem takeFault_pc : (s.takeFault f).pc = s.pc := rfl
@[simp] theorem takeFault_mem : (s.takeFault f).mem = s.mem := rfl
@[simp] theorem takeFault_fault : (s.takeFault f).fault = some f := rfl
@[simp] theorem takeFault_readReg : (s.takeFault f).readReg r = s.readReg r := rfl

@[simp] theorem writeReg_cfg : (s.writeReg r v).cfg = s.cfg := by unfold writeReg; split <;> rfl
@[simp] theorem writeReg_pc : (s.writeReg r v).pc = s.pc := by unfold writeReg; split <;> rfl
@[simp] theorem writeReg_mem : (s.writeReg r v).mem = s.mem := by unfold writeReg; split <;> rfl
@[simp] theorem writeReg_fault : (s.writeReg r v).fault = s.fault := by unfold writeReg; split <;> rfl

@[simp] theorem pcNext_eq : s.pcNext = s.pc + 4#32 := rfl
@[simp] theorem pcRelative_eq (imm : Word) : s.pcRelative imm = s.pc + imm := rfl
@[simp] theorem baseOffset_eq (imm : Word) : s.baseOffset r imm = s.readReg r + imm := rfl

@[simp] theorem mem_cfg (m : Memory) : ({ s with mem := m } : State).cfg = s.cfg := rfl
@[simp] theorem mem_x (m : Memory) : ({ s with mem := m } : State).x = s.x := rfl
@[simp] theorem mem_pc (m : Memory) : ({ s with mem := m } : State).pc = s.pc := rfl
@[simp] theorem mem_mem (m : Memory) : ({ s with mem := m } : State).mem = m := rfl
@[simp] theorem mem_fault (m : Memory) : ({ s with mem := m } : State).fault = s.fault := rfl
@[simp] theorem mem_readReg (m : Memory) : ({ s with mem := m } : State).readReg r = s.readReg r := rfl

/-! ### Registers -/

/-- `x[0]` reads 0 (R21). -/
@[simp] theorem readReg_zero : s.readReg 0#5 = 0#32 := rfl

/-- A write to register 0 is dropped (R21). -/
@[simp] theorem writeReg_zero : s.writeReg 0#5 v = s := rfl

/-- A register other than `x[0]` holds what was written to it. -/
theorem readReg_writeReg_same {r : RegIdx} (h : r ≠ 0#5) : (s.writeReg r v).readReg r = v := by
  simp [readReg, writeReg, h]

/-- Different registers have different storage. -/
theorem regIndex_ne {r q : RegIdx} (hr : r ≠ 0#5) (hq : q ≠ 0#5) (h : r ≠ q) :
    r.toNat - 1 ≠ q.toNat - 1 := by
  have h1 : r.toNat ≠ 0 := fun e => hr (by simpa [BitVec.toNat_eq] using e)
  have h2 : q.toNat ≠ 0 := fun e => hq (by simpa [BitVec.toNat_eq] using e)
  have h3 : r.toNat ≠ q.toNat := fun e => h (BitVec.eq_of_toNat_eq e)
  omega

/-- Writing one register leaves every other register alone. -/
theorem readReg_writeReg_other {r q : RegIdx} (h : q ≠ r) :
    (s.writeReg r v).readReg q = s.readReg q := by
  unfold readReg writeReg
  by_cases hr : r = 0#5
  · simp [hr]
  · by_cases hq : q = 0#5
    · simp [hq]
    · simp [hr, hq, regIndex_ne hr hq (Ne.symm h)]

/-- What a register reads after a write, in one line. -/
theorem readReg_writeReg (q : RegIdx) :
    (s.writeReg r v).readReg q = if q = r ∧ r ≠ 0#5 then v else s.readReg q := by
  by_cases h : q = r
  · subst h
    by_cases h0 : q = 0#5
    · subst h0; simp
    · simp [h0, readReg_writeReg_same]
  · simp [h, readReg_writeReg_other]

/-- The last of two writes to one register stays. -/
@[simp] theorem writeReg_writeReg_same (w : Word) : (s.writeReg r v).writeReg r w = s.writeReg r w := by
  unfold writeReg
  by_cases h : r = 0#5 <;> simp [h]

/-- Writes to different registers commute. -/
theorem writeReg_comm {r q : RegIdx} (h : r ≠ q) (w : Word) :
    (s.writeReg r v).writeReg q w = (s.writeReg q w).writeReg r v := by
  unfold writeReg
  by_cases hr : r = 0#5
  · simp [hr]
  · by_cases hq : q = 0#5
    · simp [hq]
    · simp [hr, hq, Vector.set_comm _ _ (regIndex_ne hr hq h)]

/-- Writing a register with what it reads changes nothing. -/
@[simp] theorem writeReg_readReg : s.writeReg r (s.readReg r) = s := by
  unfold writeReg readReg
  by_cases h : r = 0#5 <;> simp [h]

/-- Putting the register file back undoes a register write. -/
theorem writeReg_restore : { s.writeReg r v with x := s.x } = s := by
  unfold writeReg; split <;> rfl

end Sys2Proof.Machine.State
end

