-- ==== Sys2Proof/Laws/Memory.lean ====
section
/-! SUPPORT. The laws of the byte store: read after write, the canonical form and that every operation
keeps it, and the bytes of a wide access (spec/20_memory.md R44 to R49). -/

namespace Sys2Proof.Machine.Memory

variable {size lo a b : Nat} {v : Byte} {m : Memory}

/-! ### Canonical form -/

theorem wfFrom_cons {k : Nat} {c : Byte} {rest : Memory} :
    wfFrom size lo ((k, c) :: rest) = true ↔
      lo ≤ k ∧ k < size ∧ c ≠ 0#8 ∧ wfFrom size (k + 1) rest = true := by
  simp [wfFrom, and_assoc]

/-- A smaller lower bound also holds. -/
theorem wfFrom_mono {lo' : Nat} (h : wfFrom size lo m = true) (hle : lo' ≤ lo) :
    wfFrom size lo' m = true := by
  cases m with
  | nil => rfl
  | cons c rest =>
    obtain ⟨h1, h2, h3, h4⟩ := wfFrom_cons.1 h
    exact wfFrom_cons.2 ⟨by omega, h2, h3, h4⟩

/-- Below the lower bound nothing is listed. -/
theorem get_below (h : wfFrom size lo m = true) (ha : a < lo) : get m a = 0#8 := by
  induction m generalizing lo with
  | nil => rfl
  | cons c rest ih =>
    obtain ⟨h1, -, -, h4⟩ := wfFrom_cons.1 h
    simp only [get]
    rw [if_neg (by omega)]
    exact ih h4 (by omega)

/-- Outside memory nothing is listed. -/
theorem get_beyond (h : wfFrom size lo m = true) (ha : size ≤ a) : get m a = 0#8 := by
  induction m generalizing lo with
  | nil => rfl
  | cons c rest ih =>
    obtain ⟨-, h2, -, h4⟩ := wfFrom_cons.1 h
    simp only [get]
    rw [if_neg (by omega)]
    exact ih h4

/-- Erasing keeps the canonical form. -/
theorem wfFrom_erase (h : wfFrom size lo m = true) : wfFrom size lo (erase m a) = true := by
  induction m generalizing lo with
  | nil => rfl
  | cons c rest ih =>
    obtain ⟨h1, h2, h3, h4⟩ := wfFrom_cons.1 h
    simp only [erase, List.filter_cons]
    split
    · exact wfFrom_cons.2 ⟨h1, h2, h3, ih h4⟩
    · exact wfFrom_mono (ih h4) (by omega)

/-- Listing a non-zero byte at a free address keeps the canonical form. -/
theorem wfFrom_insert (h : wfFrom size lo m = true) (hlo : lo ≤ a) (ha : a < size) (hv : v ≠ 0#8)
    (hfree : ∀ c ∈ m, c.1 ≠ a) : wfFrom size lo (insert m a v) = true := by
  induction m generalizing lo with
  | nil => exact wfFrom_cons.2 ⟨hlo, ha, hv, rfl⟩
  | cons c rest ih =>
    obtain ⟨k, c⟩ := c
    obtain ⟨h1, h2, h3, h4⟩ := wfFrom_cons.1 h
    have hk : k ≠ a := hfree _ (List.mem_cons_self ..)
    unfold insert
    split
    · exact wfFrom_cons.2 ⟨hlo, ha, hv, wfFrom_cons.2 ⟨by omega, h2, h3, h4⟩⟩
    · exact wfFrom_cons.2 ⟨h1, h2, h3, ih h4 (by omega)
        (fun c hc => hfree c (List.mem_cons_of_mem _ hc))⟩

theorem erase_free : ∀ c ∈ erase m a, c.1 ≠ a := by
  simp [erase]

/-- A write keeps the canonical form. -/
theorem wfFrom_set (h : wfFrom size lo m = true) (hlo : lo ≤ a) (ha : a < size) :
    wfFrom size lo (set m a v) = true := by
  unfold set
  split
  · exact wfFrom_erase h
  · exact wfFrom_insert (wfFrom_erase h) hlo ha ‹_› erase_free

/-- A byte write inside memory keeps the canonical form. -/
theorem wf_set (h : wf size m = true) (ha : a < size) : wf size (set m a v) = true :=
  wfFrom_set h (Nat.zero_le a) ha

/-- A wide write inside memory keeps the canonical form. -/
theorem wf_write {n : Width} {w : BitVec n.bits} (h : wf size m = true) (ha : a + n.bytes ≤ size) :
    wf size (write m a n w) = true := by
  cases n <;> simp only [Width.bytes] at ha <;> simp only [write]
  · exact wf_set h (by omega)
  · exact wf_set (wf_set h (by omega)) (by omega)
  · exact wf_set (wf_set (wf_set (wf_set h (by omega)) (by omega)) (by omega)) (by omega)

/-! ### Read after write -/

theorem get_erase : get (erase m a) b = if b = a then 0#8 else get m b := by
  induction m with
  | nil => simp [erase, get]
  | cons c rest ih =>
    obtain ⟨k, c⟩ := c
    simp only [erase, List.filter_cons, bne_iff_ne, ne_eq] at ih ⊢
    by_cases hk : k = a
    · subst hk
      simp only [not_true_eq_false, if_false, ih, get]
      split <;> simp_all [eq_comm]
    · simp only [hk, not_false_eq_true, if_true, get, ih]
      split <;> simp_all

theorem get_insert (hfree : ∀ c ∈ m, c.1 ≠ a) :
    get (insert m a v) b = if b = a then v else get m b := by
  induction m with
  | nil => simp [insert, get, eq_comm]
  | cons c rest ih =>
    obtain ⟨k, c⟩ := c
    have hk : k ≠ a := hfree _ (List.mem_cons_self ..)
    have ih' := ih (fun c hc => hfree c (List.mem_cons_of_mem _ hc))
    unfold insert
    split
    · simp [get, eq_comm]
    · simp only [get, ih']
      split <;> simp_all

/-- A byte write changes the byte written and no other, in a memory of any form. -/
theorem get_set : get (set m a v) b = if b = a then v else get m b := by
  unfold set
  split
  · rw [get_erase]; simp [*]
  · rw [get_insert erase_free, get_erase]
    split <;> simp_all

@[simp] theorem get_set_same : get (set m a v) a = v := by simp [get_set]

theorem get_set_other (h : b ≠ a) : get (set m a v) b = get m b := by simp [get_set, h]

/-! ### Equal memories are equal data -/

/-- Two canonical memories that read the same everywhere are the same list. -/
theorem ext_of_wfFrom {m' : Memory} (h : wfFrom size lo m = true) (h' : wfFrom size lo m' = true)
    (heq : ∀ a, get m a = get m' a) : m = m' := by
  induction m generalizing lo m' with
  | nil =>
    cases m' with
    | nil => rfl
    | cons c rest =>
      obtain ⟨-, -, h3, -⟩ := wfFrom_cons.1 h'
      exact absurd (by simpa [get] using (heq c.1).symm) h3
  | cons c rest ih =>
    obtain ⟨k, c⟩ := c
    obtain ⟨h1, h2, h3, h4⟩ := wfFrom_cons.1 h
    cases m' with
    | nil => exact absurd (by simpa [get] using heq k) h3
    | cons c' rest' =>
      obtain ⟨k', c'⟩ := c'
      obtain ⟨h1', h2', h3', h4'⟩ := wfFrom_cons.1 h'
      have hk : k = k' := by
        rcases Nat.lt_trichotomy k k' with hlt | he | hlt
        · have := heq k
          simp only [get, if_true, if_neg (show k' ≠ k by omega),
            get_below h4' (a := k) (by omega)] at this
          exact absurd this h3
        · exact he
        · have := heq k'
          simp only [get, if_true, if_neg (show k ≠ k' by omega),
            get_below h4 (a := k') (by omega)] at this
          exact absurd this.symm h3'
      subst hk
      have hc : c = c' := by simpa [get] using heq k
      subst hc
      have hrest : rest = rest' := ih h4 h4' fun a => by
        by_cases ha : a < k + 1
        · rw [get_below h4 ha, get_below h4' ha]
        · simpa [get, show k ≠ a by omega] using heq a
      rw [hrest]

/-! ### The bytes of a wide access (R44, R46) -/

/-- What a byte of memory reads after a wide write: a byte of the value inside the access, most
significant first, and as before outside. -/
theorem get_write_byte {w : BitVec 8} :
    get (write m a .byte w) b = if b = a then w else get m b := get_set

theorem get_write_half {w : BitVec 16} :
    get (write m a .half w) b =
      if b = a then w.extractLsb' 8 8 else if b = a + 1 then w.extractLsb' 0 8 else get m b := by
  simp only [write, get_set]
  split <;> split <;> first | rfl | omega

theorem get_write_word {w : BitVec 32} :
    get (write m a .word w) b =
      if b = a then w.extractLsb' 24 8 else if b = a + 1 then w.extractLsb' 16 8
      else if b = a + 2 then w.extractLsb' 8 8 else if b = a + 3 then w.extractLsb' 0 8
      else get m b := by
  simp only [write, get_set]
  repeat' split
  all_goals first | rfl | omega

/-- A wide write changes no byte outside its `n` bytes. -/
theorem get_write_outside {n : Width} {w : BitVec n.bits} (h : b < a ∨ a + n.bytes ≤ b) :
    get (write m a n w) b = get m b := by
  cases n <;> simp only [Width.bytes] at h <;> simp only [write, get_set]
  · exact if_neg (by omega)
  · rw [if_neg (by omega), if_neg (by omega)]
  · rw [if_neg (by omega), if_neg (by omega), if_neg (by omega), if_neg (by omega)]

/-- A half-word is its two bytes, high byte first. -/
theorem append_bytes_half (v : BitVec 16) : v.extractLsb' 8 8 ++ v.extractLsb' 0 8 = v := by
  apply BitVec.eq_of_getLsbD_eq
  intro i hi
  simp only [BitVec.getLsbD_append, BitVec.getLsbD_extractLsb']
  split
  · simp [*]
  · rw [show 8 + (i - 8) = i by omega]; simp; omega

/-- A word is its four bytes, most significant first. -/
theorem append_bytes_word (v : BitVec 32) :
    v.extractLsb' 24 8 ++ v.extractLsb' 16 8 ++ v.extractLsb' 8 8 ++ v.extractLsb' 0 8 = v := by
  apply BitVec.eq_of_getLsbD_eq
  intro i hi
  simp only [BitVec.getLsbD_append, BitVec.getLsbD_extractLsb']
  split
  · simp [*]
  · split
    · rw [show 8 + (i - 8) = i by omega]; simp; omega
    · split
      · rw [show 16 + (i - 8 - 8) = i by omega]; simp; omega
      · rw [show 24 + (i - 8 - 8 - 8) = i by omega]; simp; omega

/-- Read after write, for every width (R45, R47). -/
theorem read_write_same {n : Width} {w : BitVec n.bits} : read (write m a n w) a n = w := by
  cases n
  · simp [read, write]
  · simp only [read, write, get_set]
    simp [append_bytes_half]
  · simp only [read, write, get_set]
    simp [append_bytes_word]

/-- A wide read depends only on its own bytes. -/
theorem read_congr {m' : Memory} {n : Width} (h : ∀ b, a ≤ b → b < a + n.bytes → get m b = get m' b) :
    read m a n = read m' a n := by
  cases n <;> simp only [Width.bytes] at h <;> simp only [read]
  · exact h a (by omega) (by omega)
  · rw [h a (by omega) (by omega), h (a + 1) (by omega) (by omega)]
  · rw [h a (by omega) (by omega), h (a + 1) (by omega) (by omega), h (a + 2) (by omega) (by omega),
      h (a + 3) (by omega) (by omega)]

end Sys2Proof.Machine.Memory
end

