-- ==== Sys2Proof/Laws/Exec.lean ====
section
/-! SUPPORT. What the shared operations can do, once each, and from them what executing an instruction can
do (`exec_next_cases`, `exec_fault_iff`, `exec_not_refused`): later proofs cite these and do not unfold
the operations. -/

namespace Sys2Proof.Machine

variable {s t : State} {addr : Word} {n : Width} {rd r : RegIdx} {v p : Word} {f : Fault}

/-! ### The two memory primitives (R48, R49) -/

theorem memRead_inBounds (h : ¬ outOfBounds s addr n) :
    s.memRead addr n = .ok (s.mem.read addr.toNat n) := if_neg h

theorem memRead_outOfBounds (h : outOfBounds s addr n) :
    s.memRead addr n = .error (.boundsViolation addr n) := if_pos h

theorem memWrite_inBounds {w : BitVec n.bits} (h : ¬ outOfBounds s addr n) :
    s.memWrite addr n w = .ok { s with mem := s.mem.write addr.toNat n w } := if_neg h

theorem memWrite_outOfBounds {w : BitVec n.bits} (h : outOfBounds s addr n) :
    s.memWrite addr n w = .error (.boundsViolation addr n) := if_pos h

/-- The fetch reads the word at `pc`, or raises the bounds fault of R56. -/
theorem fetch_eq : s.fetch =
    if s.pc.toNat + 4 > s.cfg.memSize then .error (.boundsViolation s.pc .word)
    else .ok (wordAtPc s) := rfl

/-! ### Frames of the shared effects -/

/-- A register write followed by a change of `pc`. -/
theorem writesOnly_setPc : WritesOnly rd v p s ((s.writeReg rd v).setPc p) where
  dest h := by simp [State.readReg_writeReg_same, h]
  others r h := by simp [State.readReg_writeReg_other, h]
  zero := by simp
  pc := rfl
  mem a := by simp
  fault := by simp
  cfg := by simp

/-- `writeResult` answers the state with the result in `rd` and `pc` advanced. -/
theorem writeResult_completes :
    ∃ t, writeResult rd v s = .next t ∧ WritesOnly rd v (s.pc + 4#32) s t :=
  ⟨_, rfl, by
    have := writesOnly_setPc (s := s) (rd := rd) (v := v) (p := s.pc + 4#32)
    simpa [State.advance] using this⟩

theorem writesOnly_advance : WritesOnly rd v (s.pc + 4#32) s (s.writeReg rd v).advance := by
  have := writesOnly_setPc (s := s) (rd := rd) (v := v) (p := s.pc + 4#32)
  simpa [State.advance] using this

theorem movesOnly_setPc : MovesOnly p s (s.setPc p) :=
  ⟨fun _ => rfl, rfl, fun _ => rfl, rfl, rfl⟩

theorem movesOnly_advance : MovesOnly (s.pc + 4#32) s s.advance :=
  ⟨fun _ => rfl, rfl, fun _ => rfl, rfl, rfl⟩

/-- `branchIf` moves `pc` to one of its two targets and does nothing else (R120). -/
theorem branchIf_completes (c : Bool) (target : Word) :
    ∃ t, branchIf c target s = .next t ∧ MovesOnly (if c then target else s.pc + 4#32) s t := by
  cases c
  · exact ⟨_, rfl, movesOnly_advance⟩
  · exact ⟨_, rfl, movesOnly_setPc⟩

/-! ### Loads and stores -/

theorem loadFrom_inBounds {ext : BitVec n.bits → Word} (h : ¬ outOfBounds s addr n) :
    loadFrom addr n ext rd s = writeResult rd (ext (s.mem.read addr.toNat n)) s := by
  simp [loadFrom, memRead_inBounds h]

theorem loadFrom_outOfBounds {ext : BitVec n.bits → Word} (h : outOfBounds s addr n) :
    loadFrom addr n ext rd s = .fault (.boundsViolation addr n) := by
  simp [loadFrom, memRead_outOfBounds h]

theorem storeTo_inBounds (h : ¬ outOfBounds s addr n) :
    storeTo addr n v s =
      .next (State.advance { s with mem := s.mem.write addr.toNat n (v.extractLsb' 0 n.bits) }) := by
  simp [storeTo, memWrite_inBounds h]

theorem storeTo_outOfBounds (h : outOfBounds s addr n) :
    storeTo addr n v s = .fault (.boundsViolation addr n) := by
  simp [storeTo, memWrite_outOfBounds h]

/-- A result given in another form: `writeResult` completes with it. -/
theorem writeResult_completes_with {v' : Word} (h : v' = v) :
    ∃ t, writeResult rd v' s = .next t ∧ WritesOnly rd v (s.pc + 4#32) s t := h ▸ writeResult_completes

/-- A target given in another form: `branchIf` completes at it. -/
theorem branchIf_completes_at {c : Bool} {target : Word}
    (h : (if c then target else s.pc + 4#32) = p) :
    ∃ t, branchIf c target s = .next t ∧ MovesOnly p s t := h ▸ branchIf_completes c target

/-- A load in bounds completes with the extension of what it reads. -/
theorem loadFrom_completes {ext : BitVec n.bits → Word} (hb : ¬ outOfBounds s addr n)
    (h : ext (s.mem.read addr.toNat n) = v) :
    ∃ t, loadFrom addr n ext rd s = .next t ∧ WritesOnly rd v (s.pc + 4#32) s t := by
  rw [loadFrom_inBounds hb]; exact writeResult_completes_with h

/-- A store in bounds completes, and changes its bytes and `pc` only. -/
theorem storeTo_completes {bytes : List Byte} (hb : ¬ outOfBounds s addr n)
    (hl : bytes.length = n.bytes)
    (h : ∀ k (hk : k < bytes.length),
      (s.mem.write addr.toNat n (v.extractLsb' 0 n.bits)).get (addr.toNat + k) = bytes[k]) :
    ∃ t, storeTo addr n v s = .next t ∧ StoresOnly addr.toNat bytes s t := by
  rw [storeTo_inBounds hb]
  exact ⟨_, rfl, h, fun b hb' => by rw [hl] at hb'; exact Memory.get_write_outside hb', fun _ => rfl,
    rfl, rfl, rfl⟩

/-! ### What executing an instruction can do -/

/-- The immediate of a branch or of JAL, which its target adds to `pc` (R25). -/
def transferImm : Instr → Option Word
  | .jal _ imm => some imm
  | .beq _ _ imm => some imm
  | .bne _ _ imm => some imm
  | .blt _ _ imm => some imm
  | .bge _ _ imm => some imm
  | .bltu _ _ imm => some imm
  | .bgeu _ _ imm => some imm
  | _ => none

/-- The four things an instruction does when it answers a next state. -/
inductive Effect (i : Instr) (s : State) : State → Prop where
  /-- A result in the destination register, `pc` advanced. -/
  | result (rd : RegIdx) (v : Word) (hd : i.dest = some rd) : Effect i s (s.writeReg rd v).advance
  /-- The link in the destination register, `pc` at the target. -/
  | link (rd : RegIdx) (imm : Word) (hd : i.dest = some rd) (ht : transferImm i = some imm) :
      Effect i s ((s.writeReg rd (s.pc + 4#32)).setPc (s.pc + imm))
  /-- A branch taken. -/
  | taken (imm : Word) (hd : i.dest = none) (ht : transferImm i = some imm) :
      Effect i s (s.setPc (s.pc + imm))
  /-- A branch not taken. -/
  | fallThrough (hd : i.dest = none) : Effect i s s.advance
  /-- A store inside memory, `pc` advanced. -/
  | store (addr : Word) (n : Width) (w : BitVec n.bits) (hd : i.dest = none)
      (ha : dataAccess s i = some (addr, n)) (hb : ¬ outOfBounds s addr n) :
      Effect i s (State.advance { s with mem := s.mem.write addr.toNat n w })

theorem writeResult_effect {i : Instr} (hd : i.dest = some rd) (h : writeResult rd v s = .next t) :
    Effect i s t := by
  cases h; exact .result rd v hd

theorem branchIf_effect {i : Instr} {c : Bool} {imm : Word} (hd : i.dest = none)
    (ht : transferImm i = some imm) (h : branchIf c (s.pcRelative imm) s = .next t) :
    Effect i s t := by
  cases h
  cases c
  · exact .fallThrough hd
  · exact .taken imm hd ht

theorem loadFrom_effect {i : Instr} {ext : BitVec n.bits → Word} (hd : i.dest = some rd)
    (h : loadFrom addr n ext rd s = .next t) : Effect i s t := by
  by_cases hb : outOfBounds s addr n
  · rw [loadFrom_outOfBounds hb] at h; cases h
  · rw [loadFrom_inBounds hb] at h; exact writeResult_effect hd h

theorem storeTo_effect {i : Instr} (hd : i.dest = none) (ha : dataAccess s i = some (addr, n))
    (h : storeTo addr n v s = .next t) : Effect i s t := by
  by_cases hb : outOfBounds s addr n
  · rw [storeTo_outOfBounds hb] at h; cases h
  · rw [storeTo_inBounds hb] at h; cases h; exact .store addr n _ hd ha hb

/-- Everything an instruction can do when it answers a next state. -/
theorem exec_next_cases {i : Instr} (h : exec i s = .next t) : Effect i s t := by
  cases i with
  | lui | auipc => exact writeResult_effect rfl h
  | add | sub | sll | slt | sltu | xor | srl | sra | or | and => exact writeResult_effect rfl h
  | addi | slti | sltiu | xori | ori | andi | slli | srli | srai => exact writeResult_effect rfl h
  | jal rd imm => cases h; exact .link rd imm rfl rfl
  | beq | bne | blt | bge | bltu | bgeu => exact branchIf_effect rfl rfl h
  | sb | sh | sw => exact storeTo_effect rfl rfl h
  | lb | lh | lw | lbu | lhu => exact loadFrom_effect rfl h

theorem loadFrom_fault_iff {ext : BitVec n.bits → Word} :
    loadFrom addr n ext rd s = .fault f ↔ outOfBounds s addr n ∧ f = .boundsViolation addr n := by
  by_cases hb : outOfBounds s addr n
  · simp [loadFrom_outOfBounds hb, hb, eq_comm]
  · simp [loadFrom_inBounds hb, hb, writeResult]

theorem storeTo_fault_iff :
    storeTo addr n v s = .fault f ↔ outOfBounds s addr n ∧ f = .boundsViolation addr n := by
  by_cases hb : outOfBounds s addr n
  · simp [storeTo_outOfBounds hb, hb, eq_comm]
  · simp [storeTo_inBounds hb, hb]

/-- An instruction raises a fault exactly when it makes a data access that is out of bounds, and then it
raises that access's bounds violation (R200, R206). -/
theorem exec_fault_iff {i : Instr} :
    exec i s = .fault f ↔
      ∃ addr n, dataAccess s i = some (addr, n) ∧ outOfBounds s addr n ∧
        f = .boundsViolation addr n := by
  have none_case : ∀ {o : Host.Outcome State Fault Refusal}, (∀ g, o ≠ .fault g) →
      dataAccess s i = none → (o = .fault f ↔ ∃ addr n, dataAccess s i = some (addr, n) ∧
        outOfBounds s addr n ∧ f = .boundsViolation addr n) := fun ho hn => by simp [ho, hn]
  cases i with
  | sb | sh | sw =>
    refine Iff.trans storeTo_fault_iff ?_
    simp [dataAccess]
  | lb | lh | lw | lbu | lhu =>
    refine Iff.trans loadFrom_fault_iff ?_
    simp [dataAccess]
  | _ => exact none_case (fun _ => by simp [exec, execLui, execAuipc, execJal, execBeq, execBne, execBlt,
      execBge, execBltu, execBgeu, execAdd, execSub, execSll, execSlt, execSltu, execXor, execSrl, execSra,
      execOr, execAnd, execAddi, execSlti, execSltiu, execXori, execOri, execAndi, execSlli, execSrli,
      execSrai, writeResult, jumpAndLink, branchIf]) rfl

theorem loadFrom_not_refused {ext : BitVec n.bits → Word} {x : Refusal} :
    loadFrom addr n ext rd s ≠ .refused x := by
  unfold loadFrom writeResult; split <;> simp

theorem storeTo_not_refused {x : Refusal} : storeTo addr n v s ≠ .refused x := by
  unfold storeTo; split <;> simp

/-- No instruction is refused. -/
theorem exec_not_refused {i : Instr} {x : Refusal} : exec i s ≠ .refused x := by
  cases i with
  | sb | sh | sw => exact storeTo_not_refused
  | lb | lh | lw | lbu | lhu => exact loadFrom_not_refused
  | _ => exact fun h => by cases h

/-! ### What every effect keeps -/

theorem Effect.cfg_eq {i : Instr} (h : Effect i s t) : t.cfg = s.cfg := by
  cases h <;> simp

theorem Effect.fault_eq {i : Instr} (h : Effect i s t) : t.fault = s.fault := by
  cases h <;> simp

/-- `pc` after an instruction: the next one, or `pc` plus the immediate of a branch or JAL (R25). -/
theorem Effect.pc_cases {i : Instr} (h : Effect i s t) :
    t.pc = s.pc + 4#32 ∨ ∃ imm, transferImm i = some imm ∧ t.pc = s.pc + imm := by
  cases h with
  | result | fallThrough | store => exact .inl (by simp)
  | link rd imm _ ht => exact .inr ⟨imm, ht, rfl⟩
  | taken imm _ ht => exact .inr ⟨imm, ht, rfl⟩

/-- Every effect keeps the canonical form of memory. -/
theorem Effect.mem_wf {i : Instr} (h : Effect i s t) (hm : s.mem.wf s.cfg.memSize = true) :
    t.mem.wf t.cfg.memSize = true := by
  cases h with
  | store addr n w _ _ hb => exact Memory.wf_write hm (Nat.le_of_not_lt hb)
  | _ => simpa using hm

end Sys2Proof.Machine
end

