-- ==== Sys2Proof/Laws/Step.lean ====
section
/-! SUPPORT. Everything one step can do (`step_cases`), said once: an invariant of the machine is a case
analysis over it (spec/00_scope.md R11, spec/70_reset_and_hazards.md R236). -/

namespace Sys2Proof.Machine

variable {s t : State} {f : Fault} {i : Instr}

/-- The four things a step can do. -/
inductive StepCase (s : State) : State → Prop where
  /-- A faulted machine does nothing (R204). -/
  | stays (h : s.fault.isSome = true) : StepCase s s
  /-- The fault the state raises is taken, and nothing else happens (R203, R206). -/
  | faults (f : Fault) (h : s.fault = none) (hr : raisedFault s = some f) : StepCase s (s.takeFault f)
  /-- The decoded instruction is executed. -/
  | runs (i : Instr) (t : State) (h : s.fault = none) (hr : raisedFault s = none)
      (hb : ¬ outOfBounds s s.pc .word) (hd : decode (wordAtPc s) = .ok i)
      (he : exec i s = .next t) : StepCase s t
  /-- A word that is no instruction is skipped (R191). -/
  | skips (e : Unrecognised) (h : s.fault = none) (hr : raisedFault s = none)
      (hb : ¬ outOfBounds s s.pc .word) (hd : decode (wordAtPc s) = .error e)
      (hp : s.cfg.illegalPolicy = .skip) : StepCase s s.advance

/-- A faulted machine steps to itself (R204). -/
theorem step_of_faulted (h : s.fault.isSome = true) : step s = .next s := if_pos h

/-- An unfaulted machine whose fetch is in bounds decodes the word at `pc`. -/
theorem step_of_fetched (h : s.fault = none) (hb : ¬ outOfBounds s s.pc .word) :
    step s = match decode (wordAtPc s) with
      | .error _ => settle s (execUnrecognised (wordAtPc s) s)
      | .ok i => settle s (exec i s) := by
  have hf : s.fetch = .ok (wordAtPc s) := memRead_inBounds hb
  simp only [step, h, hf]
  rfl

/-- An unfaulted machine whose fetch is out of bounds takes that fault (R56). -/
theorem step_of_unfetched (h : s.fault = none) (hb : outOfBounds s s.pc .word) :
    step s = .next (s.takeFault (.boundsViolation s.pc .word)) := by
  have hf : s.fetch = .error (.boundsViolation s.pc .word) := memRead_outOfBounds hb
  simp only [step, h, hf]
  rfl

/-- A fetch that answers a word is in bounds, and the word is the one at `pc`. -/
theorem fetch_ok {w : Word} (hf : s.fetch = .ok w) : ¬ outOfBounds s s.pc .word ∧ wordAtPc s = w := by
  rw [fetch_eq] at hf
  split at hf
  · cases hf
  · cases hf; exact ⟨‹_›, rfl⟩

/-- The immediate of a well-formed branch or jump is even (R75, R76). -/
theorem transferImm_even (h : i.wf = true) {imm : Word} (ht : transferImm i = some imm) :
    imm.getLsbD 0 = false := by
  cases i <;> simp only [transferImm, Option.some.injEq, reduceCtorEq] at ht <;> subst ht <;>
    simp only [Instr.wf, fitsImm13, fitsImm21, Bool.and_eq_true, beq_iff_eq] at h <;> exact h.2

theorem raisedFault_of_unfetched (hb : outOfBounds s s.pc .word) :
    raisedFault s = some (.boundsViolation s.pc .word) := if_pos hb

theorem raisedFault_of_fetched (hb : ¬ outOfBounds s s.pc .word) :
    raisedFault s = match decode (wordAtPc s) with
      | .error _ =>
        if s.cfg.illegalPolicy = .fault then some (.illegalInstruction s.pc (wordAtPc s)) else none
      | .ok i =>
        match dataAccess s i with
        | some (addr, n) =>
          if addr.toNat + n.bytes > s.cfg.memSize then some (.boundsViolation addr n) else none
        | none => none := if_neg hb

/-- The fault a decoded instruction raises in its state is the one `exec` answers. -/
theorem raisedFault_eq_some_iff (hb : ¬ outOfBounds s s.pc .word) (hd : decode (wordAtPc s) = .ok i) :
    raisedFault s = some f ↔ exec i s = .fault f := by
  rw [raisedFault_of_fetched hb, hd, exec_fault_iff]
  dsimp only
  cases h : dataAccess s i with
  | none => simp
  | some a =>
    obtain ⟨addr, n⟩ := a
    by_cases ho : outOfBounds s addr n
    · have ho' : addr.toNat + n.bytes > s.cfg.memSize := ho
      simp [ho, ho', eq_comm]
    · have ho' : ¬ addr.toNat + n.bytes > s.cfg.memSize := ho
      simp only [ho', if_false, Option.some.injEq, Prod.mk.injEq]
      constructor
      · simp
      · rintro ⟨_, _, ⟨rfl, rfl⟩, h2, -⟩; exact absurd h2 ho

/-- Every step is one of the four cases, and answers a next state (R7). -/
theorem step_total (s : State) : ∃ t, step s = .next t ∧ StepCase s t := by
  by_cases h : s.fault.isSome = true
  · exact ⟨s, step_of_faulted h, .stays h⟩
  replace h : s.fault = none := by simpa using h
  by_cases hb : outOfBounds s s.pc .word
  · exact ⟨_, step_of_unfetched h hb, .faults _ h (raisedFault_of_unfetched hb)⟩
  rw [step_of_fetched h hb]
  cases hd : decode (wordAtPc s) with
  | error e =>
    have hr := raisedFault_of_fetched hb
    rw [hd] at hr
    cases hp : s.cfg.illegalPolicy with
    | fault =>
      rw [hp] at hr
      exact ⟨_, by simp [execUnrecognised, hp, settle], .faults _ h hr⟩
    | skip =>
      rw [hp] at hr
      exact ⟨s.advance, by simp [execUnrecognised, hp, settle], .skips e h hr hb hd hp⟩
  | ok i =>
    cases he : exec i s with
    | next t =>
      refine ⟨t, by simp [settle, he], .runs i t h ?_ hb hd he⟩
      cases hr : raisedFault s with
      | none => rfl
      | some f => rw [(raisedFault_eq_some_iff hb hd).1 hr] at he; cases he
    | fault f =>
      exact ⟨s.takeFault f, by simp [settle, he], .faults f h ((raisedFault_eq_some_iff hb hd).2 he)⟩
    | refused x => exact absurd he exec_not_refused

/-- The inversion of a step. -/
theorem step_cases (h : step s = .next t) : StepCase s t := by
  obtain ⟨u, hu, hc⟩ := step_total s
  rw [h] at hu
  cases hu
  exact hc

/-- No step answers a fault or a refusal: a fault is taken, as the fault status of the next state. -/
theorem step_next (s : State) : ∃ t, step s = .next t := let ⟨t, h, _⟩ := step_total s; ⟨t, h⟩

end Sys2Proof.Machine
end

