-- ==== Sys2Proof/Laws/Host.lean ====
section
/-! SUPPORT. What each action of the host does to a session, said once (`hostAct_cases`), and how the phase of
the session moves (spec/70_reset_and_hazards.md R230, R238, R239, R241). -/

namespace Sys2Proof.Machine

variable {h k : Session} {s t : State} {a : HostAction} {index : Nat} {v : Word}

@[simp] theorem Session.start_machine (c : Config) : (Session.start c).machine = State.resetWith c := rfl
@[simp] theorem Session.start_stepped (c : Config) : (Session.start c).stepped = false := rfl

/-- Everything an accepted action of the host can do. -/
inductive HostCase (h : Session) : HostAction → Session → Prop where
  /-- The machine is reset, and a program may be loaded (R230). -/
  | reset : HostCase h .reset (Session.start h.machine.cfg)
  /-- A word inside memory is loaded before the first step (R238). -/
  | load (index : Nat) (v : Word) (hs : h.stepped = false) (hb : 4 * index + 4 ≤ h.machine.cfg.memSize) :
      HostCase h (.load index v) ⟨{ h.machine with mem := h.machine.mem.write (4 * index) .word v }, false⟩
  /-- The machine steps (R239). -/
  | trigger (t : State) (ht : step h.machine = .next t) : HostCase h .trigger ⟨t, true⟩

/-- A load inside memory is performed. -/
theorem loadWord_inBounds (hb : 4 * index + 4 ≤ s.cfg.memSize) :
    loadWord index v s = .next { s with mem := s.mem.write (4 * index) .word v } :=
  if_neg (Nat.not_lt.2 hb)

/-- A load outside memory is refused (decision D20). -/
theorem loadWord_outOfBounds (hb : s.cfg.memSize < 4 * index + 4) :
    loadWord index v s = .refused (.loadBoundsViolation (4 * index) .word) := if_pos hb

/-- A load after the first step is refused (R244). -/
theorem hostAct_load_stepped (hs : h.stepped = true) :
    hostAct (.load index v) h = .refused (.loadAfterFirstStep index) := if_pos hs

/-- A load before the first step is `LoadWord`. -/
theorem hostAct_load_fresh (hs : h.stepped = false) :
    hostAct (.load index v) h = inSession false (loadWord index v h.machine) := by
  simp [hostAct, hs]

/-- The inversion of an accepted action of the host. -/
theorem hostAct_cases (hk : hostAct a h = .next k) : HostCase h a k := by
  cases a with
  | reset => cases hk; exact .reset
  | trigger =>
    obtain ⟨t, ht⟩ := step_next h.machine
    simp only [hostAct, ht, inSession] at hk
    cases hk
    exact .trigger t ht
  | load index v =>
    cases hs : h.stepped with
    | true => rw [hostAct_load_stepped hs] at hk; cases hk
    | false =>
      rw [hostAct_load_fresh hs] at hk
      by_cases hb : h.machine.cfg.memSize < 4 * index + 4
      · rw [loadWord_outOfBounds hb] at hk; cases hk
      · rw [loadWord_inBounds (Nat.le_of_not_lt hb)] at hk
        cases hk
        exact .load index v hs (Nat.le_of_not_lt hb)

/-- A refused action leaves the session as it was. -/
theorem hostNext_of_refused {r : Refusal} (hr : hostAct a h = .refused r) : hostNext h a = h := by
  simp [hostNext, hr]

theorem hostNext_of_next (hk : hostAct a h = .next k) : hostNext h a = k := by
  simp [hostNext, hk]

/-- After a trigger a step has happened. -/
theorem hostNext_trigger_stepped : (hostNext h .trigger).stepped = true := by
  obtain ⟨t, ht⟩ := step_next h.machine
  rw [hostNext_of_next (k := ⟨t, true⟩) (by simp [hostAct, ht, inSession])]

/-- No action but reset forgets that a step has happened. -/
theorem hostNext_keeps_stepped (ha : a ≠ .reset) (hs : h.stepped = true) :
    (hostNext h a).stepped = true := by
  cases a with
  | reset => exact absurd rfl ha
  | trigger => exact hostNext_trigger_stepped
  | load index v => rw [hostNext_of_refused (hostAct_load_stepped hs)]; exact hs

end Sys2Proof.Machine
end

