-- ==== Sys2Proof/Laws/PerInstr.lean ====
section
/-! SUPPORT. Families of statements that are proved constructor by constructor. `RoundTrip`: a well-formed
instruction is what its encoding decodes to (spec/30_encoding.md R72, R80, R81). -/

namespace Sys2Proof.Laws.RoundTrip

/-- What is proved of each instruction. -/
def Statement (i : Instr) : Prop := i.wf = true → decode (encode i) = .ok i

variable (rd rs1 rs2 : RegIdx) (imm : Word) (shamt : BitVec 5)

theorem lui : Statement (.lui rd imm) := fun h => by simp [decode, encode, immU_encodeU _ _ h]
theorem auipc : Statement (.auipc rd imm) := fun h => by simp [decode, encode, immU_encodeU _ _ h]
theorem jal : Statement (.jal rd imm) := fun h => by simp [decode, encode, immJ_encodeJ _ _ h]
theorem beq : Statement (.beq rs1 rs2 imm) := fun h => by simp [decode, encode, decodeBranch, immB_encodeB _ _ _ _ h]
theorem bne : Statement (.bne rs1 rs2 imm) := fun h => by simp [decode, encode, decodeBranch, immB_encodeB _ _ _ _ h]
theorem blt : Statement (.blt rs1 rs2 imm) := fun h => by simp [decode, encode, decodeBranch, immB_encodeB _ _ _ _ h]
theorem bge : Statement (.bge rs1 rs2 imm) := fun h => by simp [decode, encode, decodeBranch, immB_encodeB _ _ _ _ h]
theorem bltu : Statement (.bltu rs1 rs2 imm) := fun h => by simp [decode, encode, decodeBranch, immB_encodeB _ _ _ _ h]
theorem bgeu : Statement (.bgeu rs1 rs2 imm) := fun h => by simp [decode, encode, decodeBranch, immB_encodeB _ _ _ _ h]
theorem sb : Statement (.sb rs1 rs2 imm) := fun h => by simp [decode, encode, decodeStore, immS_encodeS _ _ _ _ h]
theorem sh : Statement (.sh rs1 rs2 imm) := fun h => by simp [decode, encode, decodeStore, immS_encodeS _ _ _ _ h]
theorem sw : Statement (.sw rs1 rs2 imm) := fun h => by simp [decode, encode, decodeStore, immS_encodeS _ _ _ _ h]
theorem add : Statement (.add rd rs1 rs2) := fun _ => by simp [decode, encode, decodeOp]
theorem sub : Statement (.sub rd rs1 rs2) := fun _ => by simp [decode, encode, decodeOp]
theorem sll : Statement (.sll rd rs1 rs2) := fun _ => by simp [decode, encode, decodeOp]
theorem slt : Statement (.slt rd rs1 rs2) := fun _ => by simp [decode, encode, decodeOp]
theorem sltu : Statement (.sltu rd rs1 rs2) := fun _ => by simp [decode, encode, decodeOp]
theorem xor : Statement (.xor rd rs1 rs2) := fun _ => by simp [decode, encode, decodeOp]
theorem srl : Statement (.srl rd rs1 rs2) := fun _ => by simp [decode, encode, decodeOp]
theorem sra : Statement (.sra rd rs1 rs2) := fun _ => by simp [decode, encode, decodeOp]
theorem or : Statement (.or rd rs1 rs2) := fun _ => by simp [decode, encode, decodeOp]
theorem and : Statement (.and rd rs1 rs2) := fun _ => by simp [decode, encode, decodeOp]
theorem lb : Statement (.lb rd rs1 imm) := fun h => by simp [decode, encode, decodeLoad, immI_encodeI _ _ _ _ h]
theorem lh : Statement (.lh rd rs1 imm) := fun h => by simp [decode, encode, decodeLoad, immI_encodeI _ _ _ _ h]
theorem lw : Statement (.lw rd rs1 imm) := fun h => by simp [decode, encode, decodeLoad, immI_encodeI _ _ _ _ h]
theorem lbu : Statement (.lbu rd rs1 imm) := fun h => by simp [decode, encode, decodeLoad, immI_encodeI _ _ _ _ h]
theorem lhu : Statement (.lhu rd rs1 imm) := fun h => by simp [decode, encode, decodeLoad, immI_encodeI _ _ _ _ h]
theorem addi : Statement (.addi rd rs1 imm) := fun h => by simp [decode, encode, decodeOpImm, immI_encodeI _ _ _ _ h]
theorem slti : Statement (.slti rd rs1 imm) := fun h => by simp [decode, encode, decodeOpImm, immI_encodeI _ _ _ _ h]
theorem sltiu : Statement (.sltiu rd rs1 imm) := fun h => by simp [decode, encode, decodeOpImm, immI_encodeI _ _ _ _ h]
theorem xori : Statement (.xori rd rs1 imm) := fun h => by simp [decode, encode, decodeOpImm, immI_encodeI _ _ _ _ h]
theorem ori : Statement (.ori rd rs1 imm) := fun h => by simp [decode, encode, decodeOpImm, immI_encodeI _ _ _ _ h]
theorem andi : Statement (.andi rd rs1 imm) := fun h => by simp [decode, encode, decodeOpImm, immI_encodeI _ _ _ _ h]
theorem slli : Statement (.slli rd rs1 shamt) := fun _ => by simp [decode, encode, decodeOpImm, decodeShiftImm]
theorem srli : Statement (.srli rd rs1 shamt) := fun _ => by simp [decode, encode, decodeOpImm, decodeShiftImm]
theorem srai : Statement (.srai rd rs1 shamt) := fun _ => by simp [decode, encode, decodeOpImm, decodeShiftImm]

end Sys2Proof.Laws.RoundTrip
end

