-- ==== Sys2Proof/Tests/Slice0.lean ====
section
/-! SUPPORT. Tests on fixed values, each from an example or a table of spec/ or worked out by hand from a
rule, and a witness for every statement of Certificates/Slice0/Obligations.lean that has hypotheses. -/

namespace Sys2Proof.Tests

open Sys2Proof.Machine

/-! ### Small states -/

/-- The reset machine with registers `regs`, at `pc`, with the word `w` there. -/
def machine (regs : List (RegIdx × Word)) (pc : Word) (w : Nat) : State :=
  ((regs.foldl (fun s r => s.writeReg r.1 r.2) State.reset).setPc pc).withFetchWord 32 w

/-- The state after a step; every step answers one (`step_next`). -/
def nextOf (s : State) : State :=
  match step s with
  | .next t => t
  | .fault _ => s
  | .refused _ => s

theorem step_eq_nextOf (s : State) : step s = .next (nextOf s) := by
  obtain ⟨t, h⟩ := step_next s
  rw [nextOf, h]

/-- Whether an outcome is a next state that meets `p`. -/
def completes (p : State → Bool) : Host.Outcome State Fault Refusal → Bool
  | .next t => p t
  | .fault _ => false
  | .refused _ => false

/-- Whether an outcome is the fault `f`. -/
def raises (f : Fault) : Host.Outcome State Fault Refusal → Bool
  | .next _ => false
  | .fault g => g == f
  | .refused _ => false

/-- The registers of the examples of spec/44_alu_register.md and spec/46_alu_immediate.md. -/
def alu (w : Nat) : State :=
  machine [(1, 0x7FFFFFFF), (2, 1), (3, 0xFFFFFFFF), (4, 0x80000000), (5, 5), (6, 33), (7, 0xF0F0F0F0),
    (8, 0x0FF00FF0), (9, 31), (10, 32), (11, 0x12345678)] 0 w

/-- The registers of the examples of spec/42_branch.md, at `pc = 0x40`. -/
def branch (w : Nat) : State :=
  machine [(1, 5), (2, 5), (3, 0xFFFFFFFF), (4, 1), (5, 0x80000000), (6, 0x7FFFFFFF)] 0x40 w

/-- The registers of the examples of spec/43_store.md. -/
def store (w : Nat) : State :=
  machine [(1, 0x89ABCDEF), (2, 0x100), (3, 0x10000), (4, 0xFFFFFFFF)] 0 w

/-- The state of the examples of spec/45_load.md: bytes 89 AB CD EF 7F 01 at 0x100. -/
def load (w : Nat) : State :=
  let s := machine [(2, 0x100), (3, 0x10000), (5, 0x55555555)] 0 w
  { s with mem := (s.mem.write 0x100 .word 0x89ABCDEF#32).write 0x104 .half 0x7F01#16 }

/-- The same machine under `ILLEGAL_POLICY = skip`. -/
def skipping (s : State) : State := s.withPolicy .skip

/-- The bytes of memory from `a` on. -/
def bytesAt (s : State) (a n : Nat) : List Byte := (List.range n).map (fun k => s.mem.get (a + k))

/-! ### Well-formedness: one ill-formed term for each check -/

theorem test_wf_imm12_too_large : (Instr.addi 1 0 2048).wf = false := by decide
theorem test_wf_imm12_store_too_small : (Instr.sw 1 2 (-2049)).wf = false := by decide
theorem test_wf_imm13_too_large : (Instr.beq 1 2 4096).wf = false := by decide
theorem test_wf_imm13_odd : (Instr.bltu 1 2 3).wf = false := by decide
theorem test_wf_imm21_too_large : (Instr.jal 1 1048576).wf = false := by decide
theorem test_wf_imm21_odd : (Instr.jal 1 (-1)).wf = false := by decide
theorem test_wf_immU_low_bits : (Instr.lui 1 0x12345001).wf = false := by decide
theorem test_wf_range_ends :
    (Instr.addi 31 31 2047).wf ∧ (Instr.lb 0 0 (-2048)).wf ∧ (Instr.sb 0 0 (-2048)).wf ∧
    (Instr.bgeu 0 0 4094).wf ∧ (Instr.beq 0 0 (-4096)).wf ∧ (Instr.jal 0 1048574).wf ∧
    (Instr.jal 0 (-1048576)).wf ∧ (Instr.auipc 0 0xFFFFF000).wf := by decide

/-! ### Decoding: every constructor, its word written out from the formats of R72 and the rows of R80 -/

theorem test_decode_upper_immediate :
    decode 0b00010010001101000101_00001_0110111#32 = .ok (.lui 1 0x12345000) ∧
    decode 0b11111111111111111111_00011_0010111#32 = .ok (.auipc 3 0xFFFFF000) := by decide

theorem test_decode_jump :
    decode 0b0_0000001000_0_00000000_00001_1101111#32 = .ok (.jal 1 16) ∧
    decode 0b1_1111111100_1_11111111_00001_1101111#32 = .ok (.jal 1 (-8)) ∧
    decode 0b0_0000000000_1_00000000_00101_1101111#32 = .ok (.jal 5 2048) ∧
    decode 0b0_0000000000_0_00000001_00101_1101111#32 = .ok (.jal 5 4096) := by decide

theorem test_decode_branch :
    decode 0b0_000000_00010_00001_000_0110_0_1100011#32 = .ok (.beq 1 2 12) ∧
    decode 0b1_111111_00000_00010_001_1100_1_1100011#32 = .ok (.bne 2 0 (-8)) ∧
    decode 0b0_000000_00100_00011_100_0110_0_1100011#32 = .ok (.blt 3 4 12) ∧
    decode 0b0_000000_00100_00011_101_0000_1_1100011#32 = .ok (.bge 3 4 2048) ∧
    decode 0b0_100000_00100_00011_110_0000_0_1100011#32 = .ok (.bltu 3 4 1024) ∧
    decode 0b1_000000_00100_00011_111_0000_0_1100011#32 = .ok (.bgeu 3 4 (-4096)) := by decide

theorem test_decode_store :
    decode 0b1111111_00001_00010_000_11111_0100011#32 = .ok (.sb 2 1 (-1)) ∧
    decode 0b0000000_00001_00010_001_00001_0100011#32 = .ok (.sh 2 1 1) ∧
    decode 0b1111111_00001_00010_010_11100_0100011#32 = .ok (.sw 2 1 (-4)) := by decide

theorem test_decode_alu_register :
    decode 0b0000000_00010_00001_000_01100_0110011#32 = .ok (.add 12 1 2) ∧
    decode 0b0100000_00010_00101_000_01100_0110011#32 = .ok (.sub 12 5 2) ∧
    decode 0b0000000_01001_00010_001_01100_0110011#32 = .ok (.sll 12 2 9) ∧
    decode 0b0000000_00010_00011_010_01100_0110011#32 = .ok (.slt 12 3 2) ∧
    decode 0b0000000_00010_00011_011_01100_0110011#32 = .ok (.sltu 12 3 2) ∧
    decode 0b0000000_01000_00111_100_01100_0110011#32 = .ok (.xor 12 7 8) ∧
    decode 0b0000000_00010_00100_101_01100_0110011#32 = .ok (.srl 12 4 2) ∧
    decode 0b0100000_00010_00100_101_01100_0110011#32 = .ok (.sra 12 4 2) ∧
    decode 0b0000000_01000_00111_110_01100_0110011#32 = .ok (.or 12 7 8) ∧
    decode 0b0000000_01000_00111_111_01100_0110011#32 = .ok (.and 12 7 8) := by decide

theorem test_decode_load :
    decode 0b000000000100_00010_000_00101_0000011#32 = .ok (.lb 5 2 4) ∧
    decode 0b000000000001_00010_001_00101_0000011#32 = .ok (.lh 5 2 1) ∧
    decode 0b111011111100_00010_010_00101_0000011#32 = .ok (.lw 5 2 (-260)) ∧
    decode 0b111111111111_00011_100_00101_0000011#32 = .ok (.lbu 5 3 (-1)) ∧
    decode 0b000000000010_00010_101_00101_0000011#32 = .ok (.lhu 5 2 2) := by decide

theorem test_decode_alu_immediate :
    decode 0b010000000000_00101_000_01100_0010011#32 = .ok (.addi 12 5 1024) ∧
    decode 0b100000000000_00100_010_01100_0010011#32 = .ok (.slti 12 4 (-2048)) ∧
    decode 0b111111111111_00101_011_01100_0010011#32 = .ok (.sltiu 12 5 (-1)) ∧
    decode 0b111100000000_00111_100_01100_0010011#32 = .ok (.xori 12 7 (-256)) ∧
    decode 0b000000001111_00111_110_01100_0010011#32 = .ok (.ori 12 7 15) ∧
    decode 0b111111110000_00111_111_01100_0010011#32 = .ok (.andi 12 7 (-16)) ∧
    decode 0b0000000_11111_00010_001_01100_0010011#32 = .ok (.slli 12 2 31) ∧
    decode 0b0000000_00001_00100_101_01100_0010011#32 = .ok (.srli 12 4 1) ∧
    decode 0b0100000_01000_01011_101_01100_0010011#32 = .ok (.srai 12 11 8) := by decide

/-- The example words of R83, R127, R141, R160, R177, R179 and R192, class by class. -/
theorem test_decode_unrecognised :
    decode 0x00000000#32 = .error (.opcode 0b0000000) ∧ decode 0xFFFFFFFF#32 = .error (.opcode 0b1111111) ∧
    decode 0x00008067#32 = .error (.opcode 0b1100111) ∧ decode 0x0FF0000F#32 = .error (.opcode 0b0001111) ∧
    decode 0x00000073#32 = .error (.opcode 0b1110011) ∧ decode 0x1000A02F#32 = .error (.opcode 0b0101111) ∧
    decode 0x0020A663#32 = .error (.branchFunct3 0b010) ∧ decode 0x0020B663#32 = .error (.branchFunct3 0b011) ∧
    decode 0x00113023#32 = .error (.storeFunct3 0b011) ∧ decode 0x00117023#32 = .error (.storeFunct3 0b111) ∧
    decode 0x00013283#32 = .error (.loadFunct3 0b011) ∧ decode 0x00016283#32 = .error (.loadFunct3 0b110) ∧
    decode 0x02208633#32 = .error (.opFunct 0b0000001 0b000) ∧
    decode 0x4020F633#32 = .error (.opFunct 0b0100000 0b111) ∧
    decode 0x40459613#32 = .error (.shiftFunct7 0b0100000 0b001) ∧
    decode 0x4245D613#32 = .error (.shiftFunct7 0b0100001 0b101) := by decide

/-- The opcode table numbers bits as the word does, and a list too short for a word is refused (R70). -/
theorem test_decode_bytes :
    decodeTableWord 32 0x123450B7 = some (.lui 1 0x12345000) ∧ decodeTableWord 32 0x00008067 = none ∧
    decodeBytes [0x12, 0x34, 0x50, 0xB7, 0xFF] = .ok (.lui 1 0x12345000, [0xFF]) ∧
    decodeBytes [0x12, 0x34, 0x50] = .error .tooShort := by decide

/-! ### One step, from the examples of the rules -/

/-- S1, the source's scenario. -/
theorem test_lui :
    completes (fun t => t.readReg 1 == 0x12345000 && t.pc == 4 && t.readReg 5 == 0 && t.fault == none) (step (machine [] 0 0x123450B7)) = true := by decide

/-- R100. -/
theorem test_lui_sign :
    completes (fun t => t.readReg 5 == 0xFFFFF000 && t.pc == 4) (step (machine [] 0 0xFFFFF2B7)) = true := by decide

/-- R101. -/
theorem test_auipc :
    completes (fun t => t.readReg 3 == 0x00001100 && t.pc == 0x104) (step (machine [] 0x100 0x00001197)) = true := by decide

/-- R101. -/
theorem test_auipc_wraps :
    completes (fun t => t.readReg 3 == 0xFFFFF100 && t.pc == 0x104) (step (machine [] 0x100 0xFFFFF197)) = true := by decide

/-- R110. -/
theorem test_jal_backward :
    completes (fun t => t.readReg 1 == 0x104 && t.pc == 0xF8) (step (machine [] 0x100 0xFF9FF0EF)) = true := by decide

/-- R110. -/
theorem test_jal_not_aligned :
    completes (fun t => t.readReg 5 == 0x104 && t.pc == 0x102) (step (machine [] 0x100 0x002002EF)) = true := by decide

/-! R121 to R126: taken is `0x4C`, not taken `0x44`. -/

theorem test_beq_taken :
    completes (fun t => t.pc == 0x4C && t.fault == none) (step (branch 0x00208663)) = true := by decide

theorem test_beq_not_taken :
    completes (fun t => t.pc == 0x44 && t.fault == none) (step (branch 0x00408663)) = true := by decide

theorem test_bne_taken :
    completes (fun t => t.pc == 0x4C && t.fault == none) (step (branch 0x00409663)) = true := by decide

theorem test_bne_not_taken :
    completes (fun t => t.pc == 0x44 && t.fault == none) (step (branch 0x00209663)) = true := by decide

theorem test_blt_signed :
    completes (fun t => t.pc == 0x4C && t.fault == none) (step (branch 0x0062C663)) = true := by decide

theorem test_blt_equal :
    completes (fun t => t.pc == 0x44 && t.fault == none) (step (branch 0x0020C663)) = true := by decide

theorem test_bge_signed :
    completes (fun t => t.pc == 0x44 && t.fault == none) (step (branch 0x0041D663)) = true := by decide

theorem test_bge_equal :
    completes (fun t => t.pc == 0x4C && t.fault == none) (step (branch 0x0020D663)) = true := by decide

theorem test_bltu_unsigned :
    completes (fun t => t.pc == 0x44 && t.fault == none) (step (branch 0x0062E663)) = true := by decide

theorem test_bltu_taken :
    completes (fun t => t.pc == 0x4C && t.fault == none) (step (branch 0x00326663)) = true := by decide

theorem test_bgeu_unsigned :
    completes (fun t => t.pc == 0x4C && t.fault == none) (step (branch 0x0041F663)) = true := by decide

theorem test_bgeu_not_taken :
    completes (fun t => t.pc == 0x44 && t.fault == none) (step (branch 0x00327663)) = true := by decide

/-! R131 to R133. -/

theorem test_sb :
    completes (fun t => bytesAt t 0xFF 3 == [0x00, 0xEF, 0x00] && t.pc == 4) (step (store 0x00110023)) = true := by decide

theorem test_sb_last_byte :
    completes (fun t => bytesAt t 0xFFFE 2 == [0x00, 0xEF] && t.pc == 4) (step (store 0xFE118FA3)) = true := by decide

theorem test_sh :
    completes (fun t => bytesAt t 0x100 4 == [0x00, 0xCD, 0xEF, 0x00] && t.pc == 4) (step (store 0x001110A3)) = true := by decide

theorem test_sh_across_the_end :
    completes (fun t => t.fault == some (.boundsViolation 0xFFFF .half) && t.pc == 0 && bytesAt t 0xFFFF 1 == [0x00]) (step (store 0xFE119FA3)) = true := by decide

theorem test_sw_misaligned :
    completes (fun t => bytesAt t 0x102 6 == [0x00, 0x89, 0xAB, 0xCD, 0xEF, 0x00] && t.pc == 4) (step (store 0x001121A3)) = true := by decide

theorem test_sw_wraps_over_itself :
    completes (fun t => bytesAt t 0 4 == [0x89, 0xAB, 0xCD, 0xEF] && t.pc == 4) (step (store 0x001220A3)) = true := by decide

/-! R142 to R151. -/

theorem test_add_wraps :
    completes (fun t => t.readReg 12 == 0 && t.pc == 4) (step (alu 0x00218633)) = true := by decide

/-- R141. -/
theorem test_add_in_place :
    completes (fun t => t.readReg 5 == 10 && t.pc == 4) (step (alu 0x005282B3)) = true := by decide

theorem test_sub_order :
    completes (fun t => t.readReg 12 == 4 && t.pc == 4) (step (alu 0x40228633)) = true := by decide

theorem test_sub_borrows :
    completes (fun t => t.readReg 12 == 0xFFFFFFFF && t.pc == 4) (step (alu 0x40200633)) = true := by decide

theorem test_sll_low_five_bits :
    completes (fun t => t.readReg 12 == 0x2468ACF0 && t.pc == 4) (step (alu 0x00659633)) = true := by decide

theorem test_sll_by_32 :
    completes (fun t => t.readReg 12 == 0x12345678 && t.pc == 4) (step (alu 0x00A59633)) = true := by decide

theorem test_slt_signed :
    completes (fun t => t.readReg 12 == 1 && t.pc == 4) (step (alu 0x00122633)) = true := by decide

theorem test_slt_false :
    completes (fun t => t.readReg 12 == 0 && t.pc == 4) (step (alu 0x00312633)) = true := by decide

theorem test_sltu_unsigned :
    completes (fun t => t.readReg 12 == 0 && t.pc == 4) (step (alu 0x00123633)) = true := by decide

theorem test_sltu_true :
    completes (fun t => t.readReg 12 == 1 && t.pc == 4) (step (alu 0x00313633)) = true := by decide

theorem test_xor :
    completes (fun t => t.readReg 12 == 0xFF00FF00 && t.pc == 4) (step (alu 0x0083C633)) = true := by decide

theorem test_srl :
    completes (fun t => t.readReg 12 == 0x40000000 && t.pc == 4) (step (alu 0x00225633)) = true := by decide

theorem test_srl_by_33 :
    completes (fun t => t.readReg 12 == 0x7FFFFFFF && t.pc == 4) (step (alu 0x0061D633)) = true := by decide

theorem test_sra :
    completes (fun t => t.readReg 12 == 0xC0000000 && t.pc == 4) (step (alu 0x40225633)) = true := by decide

theorem test_sra_by_32 :
    completes (fun t => t.readReg 12 == 0x80000000 && t.pc == 4) (step (alu 0x40A25633)) = true := by decide

theorem test_or :
    completes (fun t => t.readReg 12 == 0xFFF0FFF0 && t.pc == 4) (step (alu 0x0083E633)) = true := by decide

theorem test_and :
    completes (fun t => t.readReg 12 == 0x00F000F0 && t.pc == 4) (step (alu 0x0083F633)) = true := by decide

/-! R161 to R165. -/

theorem test_lb_negative :
    completes (fun t => t.readReg 5 == 0xFFFFFF89 && t.pc == 4 && t.fault == none) (step (load 0x00010283)) = true := by decide

theorem test_lb_out_of_bounds :
    completes (fun t => t.fault == some (.boundsViolation 0x10000 .byte) && t.readReg 5 == 0x55555555 && t.pc == 0) (step (load 0x00018283)) = true := by decide

theorem test_lh_odd_address :
    completes (fun t => t.readReg 5 == 0xFFFFABCD && t.pc == 4 && t.fault == none) (step (load 0x00111283)) = true := by decide

theorem test_lh_positive :
    completes (fun t => t.readReg 5 == 0x7F01 && t.pc == 4 && t.fault == none) (step (load 0x00411283)) = true := by decide

theorem test_lw_misaligned :
    completes (fun t => t.readReg 5 == 0xABCDEF7F && t.pc == 4 && t.fault == none) (step (load 0x00112283)) = true := by decide

/-- R160. -/
theorem test_lw_to_its_base :
    completes (fun t => t.readReg 2 == 0x89ABCDEF && t.pc == 4) (step (load 0x00012103)) = true := by decide

theorem test_lbu :
    completes (fun t => t.readReg 5 == 0x89 && t.pc == 4 && t.fault == none) (step (load 0x00014283)) = true := by decide

theorem test_lhu :
    completes (fun t => t.readReg 5 == 0x89AB && t.pc == 4 && t.fault == none) (step (load 0x00015283)) = true := by decide

theorem test_lhu_across_the_end :
    completes (fun t => t.fault == some (.boundsViolation 0xFFFF .half) && t.readReg 5 == 0x55555555) (step (load 0xFFF1D283)) = true := by decide

/-! R171 to R179. -/

theorem test_addi_bit_30_set :
    completes (fun t => t.readReg 12 == 0x405 && t.pc == 4) (step (alu 0x40028613)) = true := by decide

theorem test_addi_negative :
    completes (fun t => t.readReg 12 == 0xFFFFFFFF && t.pc == 4) (step (alu 0xFFA28613)) = true := by decide

theorem test_slti :
    completes (fun t => t.readReg 12 == 1 && t.pc == 4) (step (alu 0x80022613)) = true := by decide

theorem test_slti_negative :
    completes (fun t => t.readReg 12 == 0 && t.pc == 4) (step (alu 0xFFF2A613)) = true := by decide

theorem test_sltiu_negative_is_large :
    completes (fun t => t.readReg 12 == 1 && t.pc == 4) (step (alu 0xFFF2B613)) = true := by decide

theorem test_sltiu_equal :
    completes (fun t => t.readReg 12 == 0 && t.pc == 4) (step (alu 0xFFF1B613)) = true := by decide

theorem test_xori_negative :
    completes (fun t => t.readReg 12 == 0x0F0F0FF0 && t.pc == 4) (step (alu 0xF003C613)) = true := by decide

theorem test_ori_negative :
    completes (fun t => t.readReg 12 == 0xFFFFF8F0 && t.pc == 4) (step (alu 0x8003E613)) = true := by decide

theorem test_andi_negative :
    completes (fun t => t.readReg 12 == 0xF0F0F0F0 && t.pc == 4) (step (alu 0xFF03F613)) = true := by decide

theorem test_slli_31 :
    completes (fun t => t.readReg 12 == 0x80000000 && t.pc == 4) (step (alu 0x01F11613)) = true := by decide

theorem test_srli :
    completes (fun t => t.readReg 12 == 0x0FFFFFFF && t.pc == 4) (step (alu 0x0041D613)) = true := by decide

theorem test_srai :
    completes (fun t => t.readReg 12 == 0xFF0F0F0F && t.pc == 4) (step (alu 0x4043D613)) = true := by decide

theorem test_srai_by_0 :
    completes (fun t => t.readReg 12 == 0x80000000 && t.pc == 4) (step (alu 0x40025613)) = true := by decide

/-! Faults, the policy, register 0. -/

/-- S10, R190. -/
theorem test_unrecognised_faults :
    completes (fun t => t == (machine [] 0x20 0x00008067).takeFault (.illegalInstruction 0x20 0x00008067)) (step (machine [] 0x20 0x00008067)) = true := by decide

/-- S10, R191. -/
theorem test_unrecognised_skips :
    completes (fun t => t == (skipping (machine [] 0x20 0x00008067)).setPc 0x24) (step (skipping (machine [] 0x20 0x00008067))) = true := by decide

/-- R56. -/
theorem test_fetch_at_the_end :
    completes (fun t => t.fault == some (.boundsViolation 0xFFFE .word) && t.pc == 0xFFFE) (step (State.reset.setPc 0xFFFE)) = true := by decide

/-- R193, R34. -/
theorem test_unloaded_memory :
    completes (fun t => t.fault == some (.illegalInstruction 0 0)) (step (State.reset)) = true := by decide

/-- S5. -/
theorem test_register_zero :
    completes (fun t => t.readReg 0 == 0 && t.pc == 4) (step (machine [] 0 0xFFFFF037)) = true := by decide

/-- R110, R240. -/
theorem test_self_jump :
    completes (fun t => t == machine [] 0x40 0x0000006F) (step (machine [] 0x40 0x0000006F)) = true := by decide

/-- S12: `LoadWord(3, 0x89ABCDEF)`. -/
theorem test_load_word : completes (fun t => bytesAt t 11 6 == [0x00, 0x89, 0xAB, 0xCD, 0xEF, 0x00])
    (loadWord 3 0x89ABCDEF#32 State.reset) = true := by decide

/-- R241, S1: the word is loaded and run, and a load after the step is refused and writes nothing. -/
theorem test_load_after_the_first_step :
    let h := hostRun [.load 0 0x123450B7, .trigger, .load 1 0xFFFFFFFF] (Session.start Config.reference)
    h.machine.readReg 1 = 0x12345000 ∧ h.machine.pc = 4 ∧
      bytesAt h.machine 0 8 = [0x12, 0x34, 0x50, 0xB7, 0, 0, 0, 0] ∧
      hostAct (.load 1 0xFFFFFFFF) h = .refused (.loadAfterFirstStep 1) :=
  ⟨by decide, by decide, by decide, rfl⟩

/-- S8: bits 7 and 20 of the word are bit 11 of the branch and jump immediates. -/
theorem test_immediates :
    immB 0x00000080 = 0x800 ∧ immJ 0x00100000 = 0x800 ∧ immB 0xFFFFFFFF = 0xFFFFFFFE ∧
    immJ 0xFFFFFFFF = 0xFFFFFFFE ∧ immI 0x80008093 = 0xFFFFF800 ∧ immS 0xFE112E23 = 0xFFFFFFFC ∧
    immU 0x00000FFF = 0 := by decide

/-! ### Witnesses: concrete values that meet the hypotheses of each statement, clause by clause, at the ends
of their ranges (`MEM_SIZE` is 65536 = 0x10000 in the reset machine) -/

theorem test_witness_LoadWordPlacesTheWordBigEndian :
    4 * 16383 + 4 ≤ State.reset.cfg.memSize ∧ State.reset.cfg.memSize < 4 * 16384 + 4 := by decide

theorem test_witness_ImmIAndImmUBitByBit : 0 < 32 ∧ 10 < 11 ∧ ¬ 11 < 11 ∧ 31 < 32 := by decide

theorem test_witness_ImmSImmBImmJBitByBit : 0 < 32 ∧ 4 < 5 ∧ 10 < 11 ∧ 19 < 20 ∧ 31 < 32 := by decide

theorem test_witness_DecodeOfEncodeIsTheInstruction :
    (Instr.jal 1 (-1048576)).wf = true ∧ (Instr.sra 31 0 17).wf = true := by decide

theorem test_witness_EncodeOfDecodeIsTheWord :
    decode 0xFE011CE3#32 = .ok (.bne 2 0 (-8)) ∧ encode (.bne 2 0 (-8)) = 0xFE011CE3#32 := by decide

theorem test_witness_DecodedInstructionIsWellFormed :
    decode 0xFE112E23#32 = .ok (.sw 2 1 (-4)) := by decide

theorem test_witness_DecoderReadsTheFieldsOfEveryRow_stores_loads :
    (opcodeOf 0x00110023#32 = 0b0100011 ∧ funct3Of 0x00110023#32 = 0b000) ∧
    (opcodeOf 0x00111023#32 = 0b0100011 ∧ funct3Of 0x00111023#32 = 0b001) ∧
    (opcodeOf 0x00112023#32 = 0b0100011 ∧ funct3Of 0x00112023#32 = 0b010) ∧
    (opcodeOf 0x00010283#32 = 0b0000011 ∧ funct3Of 0x00010283#32 = 0b000) ∧
    (opcodeOf 0x00011283#32 = 0b0000011 ∧ funct3Of 0x00011283#32 = 0b001) ∧
    (opcodeOf 0x00012283#32 = 0b0000011 ∧ funct3Of 0x00012283#32 = 0b010) ∧
    (opcodeOf 0x00014283#32 = 0b0000011 ∧ funct3Of 0x00014283#32 = 0b100) ∧
    (opcodeOf 0x00015283#32 = 0b0000011 ∧ funct3Of 0x00015283#32 = 0b101) := by decide

theorem test_witness_DecoderAgreesWithTheOpcodeTable :
    (⟨"SRAI", 0x40005013#32, 0xFE00707F#32⟩ : OpcodeRow) ∈ opcodeRows ∧
    OpcodeRow.covers ⟨"SRAI", 0x40005013#32, 0xFE00707F#32⟩ 0x4085D613#32 = true ∧
    decode 0x4085D613#32 = .ok (.srai 12 11 8) := by decide

theorem test_witness_OpcodeRowsDoNotOverlap :
    (⟨"ADD", 0x00000033#32, 0xFE00707F#32⟩ : OpcodeRow) ∈ opcodeRows ∧
    OpcodeRow.covers ⟨"ADD", 0x00000033#32, 0xFE00707F#32⟩ 0x005282B3#32 = true ∧
    OpcodeRow.covers ⟨"SUB", 0x40000033#32, 0xFE00707F#32⟩ 0x005282B3#32 = false := by decide

/-- One word of each class (a) to (f), and a word of no class. -/
theorem test_witness_UnrecognisedWordsAreTheSpecsSixClasses :
    opcodeOf 0x00008067#32 = 0b1100111 ∧
    (opcodeOf 0x0020A663#32 = 0b1100011 ∧ funct3Of 0x0020A663#32 = 0b010) ∧
    (opcodeOf 0x00113023#32 = 0b0100011 ∧ funct3Of 0x00113023#32 = 0b011) ∧
    (opcodeOf 0x00016283#32 = 0b0000011 ∧ funct3Of 0x00016283#32 = 0b110) ∧
    (opcodeOf 0x02208633#32 = 0b0110011 ∧ funct7Of 0x02208633#32 = 0b0000001) ∧
    (opcodeOf 0x40459613#32 = 0b0010011 ∧ funct3Of 0x40459613#32 = 0b001 ∧
      funct7Of 0x40459613#32 = 0b0100000) ∧
    decode 0x40225633#32 = .ok (.sra 12 4 2) := by decide

theorem test_witness_UnreadRegisterHasNoInfluence :
    (3#5 ∉ (Instr.add 3 1 2).sources) ∧ (4#5 ∉ (Instr.sw 1 2 0).sources) ∧
    (0#5 ∉ (Instr.lui 5 0).sources) := by decide

theorem test_witness_OnlyTheDestinationRegisterChanges :
    step (alu 0x00500613) = .next (nextOf (alu 0x00500613)) ∧
    (nextOf (alu 0x00500613)).readReg 12 ≠ (alu 0x00500613).readReg 12 :=
  ⟨step_eq_nextOf _, by decide⟩

theorem test_witness_LuiLoadsTheUpperImmediate : opcodeOf 0x123450B7#32 = 0b0110111 := by decide
theorem test_witness_DecoderReadsTheFieldsOfEveryRow_upper_jump :
    opcodeOf 0x123450B7#32 = 0b0110111 ∧ opcodeOf 0x00001197#32 = 0b0010111 ∧
    opcodeOf 0xFF9FF0EF#32 = 0b1101111 := by decide

/-- R110: `jal x1, -4` at `pc = 0` has its target outside memory. -/
theorem test_witness_JalLinksAndJumps :
    State.reset.fault = none ∧
    State.reset.cfg.memSize < (State.reset.pc + (-4)).toNat + 4 := by decide

theorem test_witness_DecoderReadsTheFieldsOfEveryRow_equality :
    (opcodeOf 0x00208663#32 = 0b1100011 ∧ funct3Of 0x00208663#32 = 0b000) ∧
    (opcodeOf 0xFE011CE3#32 = 0b1100011 ∧ funct3Of 0xFE011CE3#32 = 0b001) := by decide

theorem test_witness_DecoderReadsTheFieldsOfEveryRow_signed :
    (opcodeOf 0x0041C663#32 = 0b1100011 ∧ funct3Of 0x0041C663#32 = 0b100) ∧
    (opcodeOf 0x0041D663#32 = 0b1100011 ∧ funct3Of 0x0041D663#32 = 0b101) := by decide

theorem test_witness_DecoderReadsTheFieldsOfEveryRow_unsigned :
    (opcodeOf 0x0041E663#32 = 0b1100011 ∧ funct3Of 0x0041E663#32 = 0b110) ∧
    (opcodeOf 0x0041F663#32 = 0b1100011 ∧ funct3Of 0x0041F663#32 = 0b111) := by decide

/-- Base `x[3] = 0x10000`: the last byte, half-word and word of memory, and one byte further. -/
theorem test_witness_StoresWriteTheLowBytesBigEndianOrRaise :
    ((store 0).readReg 3 + (-1)).toNat + 1 ≤ (store 0).cfg.memSize ∧
    ((store 0).readReg 3 + (-2)).toNat + 2 ≤ (store 0).cfg.memSize ∧
    ((store 0).readReg 3 + (-4)).toNat + 4 ≤ (store 0).cfg.memSize ∧
    (store 0).cfg.memSize < ((store 0).readReg 3 + 0).toNat + 1 ∧
    (store 0).cfg.memSize < ((store 0).readReg 3 + (-1)).toNat + 2 ∧
    (store 0).cfg.memSize < ((store 0).readReg 3 + (-3)).toNat + 4 := by decide

theorem test_witness_DecoderReadsTheFieldsOfEveryRow_add_sub :
    (opcodeOf 0x00208633#32 = 0b0110011 ∧ funct3Of 0x00208633#32 = 0b000 ∧
      funct7Of 0x00208633#32 = 0b0000000) ∧
    (opcodeOf 0x40228633#32 = 0b0110011 ∧ funct3Of 0x40228633#32 = 0b000 ∧
      funct7Of 0x40228633#32 = 0b0100000) := by decide

theorem test_witness_DecoderReadsTheFieldsOfEveryRow_set_less :
    (opcodeOf 0x0021A633#32 = 0b0110011 ∧ funct3Of 0x0021A633#32 = 0b010 ∧
      funct7Of 0x0021A633#32 = 0b0000000) ∧
    (opcodeOf 0x0021B633#32 = 0b0110011 ∧ funct3Of 0x0021B633#32 = 0b011 ∧
      funct7Of 0x0021B633#32 = 0b0000000) := by decide

theorem test_witness_DecoderReadsTheFieldsOfEveryRow_bitwise :
    (opcodeOf 0x0083C633#32 = 0b0110011 ∧ funct3Of 0x0083C633#32 = 0b100 ∧
      funct7Of 0x0083C633#32 = 0b0000000) ∧
    (opcodeOf 0x0083E633#32 = 0b0110011 ∧ funct3Of 0x0083E633#32 = 0b110 ∧
      funct7Of 0x0083E633#32 = 0b0000000) ∧
    (opcodeOf 0x0083F633#32 = 0b0110011 ∧ funct3Of 0x0083F633#32 = 0b111 ∧
      funct7Of 0x0083F633#32 = 0b0000000) := by decide

theorem test_witness_DecoderReadsTheFieldsOfEveryRow_shifts :
    (opcodeOf 0x00911633#32 = 0b0110011 ∧ funct3Of 0x00911633#32 = 0b001 ∧
      funct7Of 0x00911633#32 = 0b0000000) ∧
    (opcodeOf 0x00225633#32 = 0b0110011 ∧ funct3Of 0x00225633#32 = 0b101 ∧
      funct7Of 0x00225633#32 = 0b0000000) ∧
    (opcodeOf 0x40225633#32 = 0b0110011 ∧ funct3Of 0x40225633#32 = 0b101 ∧
      funct7Of 0x40225633#32 = 0b0100000) := by decide

/-- Both arms of the bit clause: a bit that moves and a vacated one, at `k = 31`. -/
theorem test_witness_ArithmeticRightShiftFillsWithTheSign :
    0 < 32 ∧ 0 + (31#5).toNat < 32 ∧ ¬ 1 + (31#5).toNat < 32 := by decide

theorem test_witness_LoadsWriteTheExtendedBytesOrRaise :
    ((load 0).readReg 3 + (-1)).toNat + 1 ≤ (load 0).cfg.memSize ∧
    ((load 0).readReg 3 + (-2)).toNat + 2 ≤ (load 0).cfg.memSize ∧
    ((load 0).readReg 3 + (-4)).toNat + 4 ≤ (load 0).cfg.memSize ∧
    (load 0).cfg.memSize < ((load 0).readReg 3 + 0).toNat + 1 ∧
    (load 0).cfg.memSize < ((load 0).readReg 3 + (-1)).toNat + 2 ∧
    (load 0).cfg.memSize < ((load 0).readReg 3 + (-3)).toNat + 4 := by decide

theorem test_witness_DecoderReadsTheFieldsOfEveryRow_add_immediate :
    (opcodeOf 0x00500613#32 = 0b0010011 ∧ funct3Of 0x00500613#32 = 0b000) ∧
    (opcodeOf 0x0062A613#32 = 0b0010011 ∧ funct3Of 0x0062A613#32 = 0b010) ∧
    (opcodeOf 0x0062B613#32 = 0b0010011 ∧ funct3Of 0x0062B613#32 = 0b011) := by decide

theorem test_witness_DecoderReadsTheFieldsOfEveryRow_bitwise_immediate :
    (opcodeOf 0xFFF3C613#32 = 0b0010011 ∧ funct3Of 0xFFF3C613#32 = 0b100) ∧
    (opcodeOf 0x00F3E613#32 = 0b0010011 ∧ funct3Of 0x00F3E613#32 = 0b110) ∧
    (opcodeOf 0x0FF3F613#32 = 0b0010011 ∧ funct3Of 0x0FF3F613#32 = 0b111) := by decide

theorem test_witness_DecoderReadsTheFieldsOfEveryRow_immediate_shifts :
    (opcodeOf 0x01F11613#32 = 0b0010011 ∧ funct3Of 0x01F11613#32 = 0b001 ∧
      funct7Of 0x01F11613#32 = 0b0000000) ∧
    (opcodeOf 0x00125613#32 = 0b0010011 ∧ funct3Of 0x00125613#32 = 0b101 ∧
      funct7Of 0x00125613#32 = 0b0000000) ∧
    (opcodeOf 0x40125613#32 = 0b0010011 ∧ funct3Of 0x40125613#32 = 0b101 ∧
      funct7Of 0x40125613#32 = 0b0100000) := by decide

/-- R50: the last access in bounds and the first out of bounds of each width, and the top address. -/
theorem test_witness_MemReadIsBigEndianAndBoundsChecked :
    (0xFFFF#32).toNat + 1 ≤ State.reset.cfg.memSize ∧ (0xFFFE#32).toNat + 2 ≤ State.reset.cfg.memSize ∧
    (0xFFFC#32).toNat + 4 ≤ State.reset.cfg.memSize ∧
    State.reset.cfg.memSize < (0x10000#32).toNat + Width.byte.bytes ∧
    State.reset.cfg.memSize < (0xFFFF#32).toNat + Width.half.bytes ∧
    State.reset.cfg.memSize < (0xFFFD#32).toNat + Width.word.bytes ∧
    State.reset.cfg.memSize < (0xFFFFFFFF#32).toNat + Width.word.bytes := by decide

theorem test_witness_MemWriteChangesExactlyItsBytes :
    (0xFFFC#32).toNat + Width.word.bytes ≤ State.reset.cfg.memSize ∧ 3 < Width.word.bytes ∧
    State.reset.cfg.memSize < (0xFFFD#32).toNat + Width.word.bytes := by decide

theorem test_witness_MixedWidthAccesses :
    State.reset.cfg.memSize ≤ 2 ^ 32 ∧
    State.reset.memWrite 0xFFFC#32 .word 0x123450B7#32 =
      .ok { State.reset with mem := [(0xFFFC, 0x12), (0xFFFD, 0x34), (0xFFFE, 0x50), (0xFFFF, 0xB7)] } ∧
    (0xFFFC#32).toNat + 4 ≤ State.reset.cfg.memSize ∧
    State.reset.memWrite 0xFFFC#32 .byte 0x12#8 =
      .ok { State.reset with mem := [(0xFFFC, 0x12)] } := by decide

theorem test_witness_StoreWordThenLoadWordRoundTrips :
    31#5 ≠ 0#5 ∧ ((store 0).readReg 3 + (-4)).toNat + 4 ≤ (store 0).cfg.memSize := by decide

theorem test_witness_CanonicalMemoriesThatReadAlikeAreEqual :
    Memory.wf 8 [(0, 1#8), (7, 255#8)] = true ∧ Memory.wf 8 [(8, 1#8)] = false ∧
    Memory.wf 8 [(3, 0#8)] = false ∧ Memory.wf 8 [(3, 1#8), (3, 1#8)] = false := by decide

theorem test_witness_OnlyStoresChangeMemory :
    step (store 0xFE118FA3) = .next (nextOf (store 0xFE118FA3)) ∧
    (nextOf (store 0xFE118FA3)).mem.get 0xFFFF ≠ (store 0xFE118FA3).mem.get 0xFFFF :=
  ⟨step_eq_nextOf _, by decide⟩

/-- `sw x1, 4(x0)` at `pc = 0` stores over the next instruction. -/
theorem test_witness_StoredWordIsFetchedNext :
    (∃ t, exec (.sw 0 1 4) (store 0) = .next t) ∧ (store 0).readReg 0 + 4 = (store 0).pc + 4#32 :=
  ⟨⟨_, rfl⟩, by decide⟩

/-- An instruction that completes, and one that raises. -/
theorem test_witness_StepRunsTheDecodedInstruction :
    (alu 0x00218633).fault = none ∧ (alu 0x00218633).fetch = .ok 0x00218633#32 ∧
    decode 0x00218633#32 = .ok (.add 12 3 2) ∧ (∃ t, exec (.add 12 3 2) (alu 0x00218633) = .next t) ∧
    (load 0x00018283).fault = none ∧ (load 0x00018283).fetch = .ok 0x00018283#32 ∧
    decode 0x00018283#32 = .ok (.lb 5 3 0) ∧
    raises (.boundsViolation 0x10000 .byte) (exec (.lb 5 3 0) (load 0x00018283)) = true :=
  ⟨by decide, by decide, by decide, ⟨_, rfl⟩, by decide, by decide, by decide, by decide⟩

theorem test_witness_FetchReadsTheWordAtPcOrFaults :
    (State.reset.setPc 0xFFFC).pc.toNat + 4 ≤ State.reset.cfg.memSize ∧
    (State.reset.setPc 0xFFFD).fault = none ∧
    State.reset.cfg.memSize < (State.reset.setPc 0xFFFD).pc.toNat + 4 := by decide

theorem test_witness_UnrecognisedWordFaultsUnderFault :
    (machine [] 0x20 0x00008067).fault = none ∧
    (machine [] 0x20 0x00008067).cfg.illegalPolicy = .fault ∧
    (machine [] 0x20 0x00008067).fetch = .ok 0x00008067#32 ∧
    decode 0x00008067#32 = .error (.opcode 0b1100111) := by decide

theorem test_witness_UnrecognisedWordIsSkippedUnderSkip :
    (skipping (machine [] 0x20 0x00008067)).fault = none ∧
    (skipping (machine [] 0x20 0x00008067)).cfg.illegalPolicy = .skip ∧
    (skipping (machine [] 0x20 0x00008067)).fetch = .ok 0x00008067#32 ∧
    decode 0x00008067#32 = .error (.opcode 0b1100111) ∧
    step (skipping (machine [] 0x20 0x00008067)) =
      .next (nextOf (skipping (machine [] 0x20 0x00008067))) :=
  ⟨by decide, by decide, by decide, by decide, step_eq_nextOf _⟩

/-- A faulted machine, and the host action that leaves its fault. -/
theorem test_witness_FaultIsTerminal :
    (State.reset.takeFault (.illegalInstruction 0 0)).fault = some (.illegalInstruction 0 0) ∧
    hostAct .reset ⟨State.reset.takeFault (.illegalInstruction 0 0), true⟩ =
      .next (Session.start Config.reference) ∧
    (Session.start Config.reference).machine.fault ≠ some (.illegalInstruction 0 0) :=
  ⟨by decide, rfl, by decide⟩

theorem test_witness_FaultStatusIsSetByAFaultingStepOnly :
    step State.reset = .next (nextOf State.reset) ∧
    hostAct .reset ⟨State.reset.takeFault (.illegalInstruction 0 0), true⟩ =
      .next (Session.start Config.reference) ∧
    (State.reset.takeFault (.illegalInstruction 0 0)).fault ≠ none ∧
    (Session.start Config.reference).machine.fault = none :=
  ⟨step_eq_nextOf _, rfl, by decide, by decide⟩

/-- The three faults, in the order of R206: fetch bounds, illegal instruction, data bounds. -/
theorem test_witness_FaultingStepIsPreciseAndInPriorityOrder :
    (State.reset.setPc 0xFFFE).fault = none ∧ (∀ s, step s = .next (nextOf s)) ∧
    (nextOf (State.reset.setPc 0xFFFE)).fault = some (.boundsViolation 0xFFFE .word) ∧
    (nextOf State.reset).fault = some (.illegalInstruction 0 0) ∧
    (nextOf (load 0x0001A003)).fault = some (.boundsViolation 0x10000 .word) :=
  ⟨by decide, step_eq_nextOf, by decide, by decide, by decide⟩

/-- A faulting step, a skipped word and a taken branch. -/
theorem test_witness_NextPcIsTheControlFlowMultiplexers :
    (∀ s, step s = .next (nextOf s)) ∧ State.reset.fault = none ∧
    (raisedFault State.reset).isSome = true ∧
    raisedFault (skipping State.reset) = none ∧ decode (wordAtPc (skipping State.reset)) =
      .error (.opcode 0) ∧
    raisedFault (branch 0x00208663) = none ∧ controlFlow (branch 0x00208663) (.beq 1 2 12) = 0x4C :=
  ⟨step_eq_nextOf, by decide, by decide, by decide, by decide, by decide, by decide⟩

/-- Two steps that fetch instructions: S3, `addi x1, x0, 5` then `addi x1, x1, 3`. -/
theorem test_witness_PoliciesAgreeOnRecognisedRuns :
    RecognisedFor 2 ((machine [] 4 0x00308093).setPc 0 |>.withFetchWord 32 0x00500093) := by
  have h1 : ((machine [] 4 0x00308093).setPc 0 |>.withFetchWord 32 0x00500093).fetch =
      .ok 0x00500093#32 := by decide
  have h2 : (nextOf ((machine [] 4 0x00308093).setPc 0 |>.withFetchWord 32 0x00500093)).fetch =
      .ok 0x00308093#32 := by decide
  refine ⟨fun w hw => ?_, _, step_eq_nextOf _, fun w hw => ?_, _, step_eq_nextOf _, trivial⟩
  · rw [h1] at hw; cases hw; exact ⟨.addi 1 0 5, by decide⟩
  · rw [h2] at hw; cases hw; exact ⟨.addi 1 1 3, by decide⟩

theorem test_witness_SelfJumpIsAFixedPoint : halted (machine [(1, 7)] 0x40 0x0000006F) :=
  ⟨by decide, by decide⟩

theorem test_witness_PlacedInstructionRunsNext :
    (State.reset.setPc 0xFFFC).fault = none ∧
    (State.reset.setPc 0xFFFC).pc.toNat + 4 ≤ (State.reset.setPc 0xFFFC).cfg.memSize ∧
    decodeTableWord 32 0x123450B7 = some (.lui 1 0x12345000) := by decide

/-- The smallest memory and the largest, and both policies. -/
theorem test_witness_ResetMeetsTheInvariant :
    Config.wf { memSize := 4, illegalPolicy := .skip } = true ∧
    Config.wf { memSize := 2 ^ 32, illegalPolicy := .fault } = true ∧
    Config.wf { memSize := 2 ^ 32 + 4, illegalPolicy := .fault } = false := by decide

/-- A running machine and a faulted one that meet the invariant. -/
theorem test_witness_StepKeepsTheInvariant :
    (alu 0x00218633).Inv ∧ (State.reset.takeFault (.illegalInstruction 0 0)).Inv ∧
    ∀ s, step s = .next (nextOf s) :=
  ⟨⟨by decide, by decide, by decide, fun f h => by cases h⟩,
    ⟨by decide, by decide, by decide, fun f h => by cases h; decide⟩, step_eq_nextOf⟩

/-- A fresh session and a stepped, faulted one that meet the invariant of the session. -/
theorem test_witness_HostActionsKeepTheInvariant :
    (Session.start Config.reference).Inv ∧
    (∃ k, hostAct (.load 16383 1) (Session.start Config.reference) = .next k) ∧
    (Session.mk (State.reset.takeFault (.illegalInstruction 0 0)) true).Inv ∧
    ∃ k, hostAct .trigger (Session.start Config.reference) = .next k :=
  ⟨⟨⟨by decide, by decide, by decide, fun f h => by cases h⟩, fun _ => rfl⟩, ⟨_, rfl⟩,
    ⟨⟨by decide, by decide, by decide, fun f h => by cases h; decide⟩, fun h => by cases h⟩,
    ⟨_, rfl⟩⟩

/-- Loads, two triggers and a refused load in between; after a reset a load is accepted again. -/
theorem test_witness_LoadIsRefusedAfterTheFirstStep :
    HostAction.reset ∉ [HostAction.load 0 5, .trigger] ∧
    (hostRun [.load 0 0x123450B7, .trigger, .load 0 5, .trigger] (Session.start Config.reference)).stepped =
      true ∧
    (hostRun [.load 0 0x123450B7, .trigger, .load 0 5, .reset, .load 0 7]
      (Session.start Config.reference)).machine.mem = [(3, 7)] := by decide

end Sys2Proof.Tests
end

section
/-! SUPPORT. The step of an unfaulted machine whose fetched word decodes, an instruction placed at `pc`, and
runs: a run answers a state after any number of steps (spec/00_scope.md R7, R11). -/

namespace Sys2Proof.Machine

variable {s t : State} {v w : Word} {i : Instr}

/-! ### The step of a decoded instruction (R11, R236) -/

/-- An unfaulted machine whose fetched word decodes executes that instruction. -/
theorem step_of_decoded (h : s.fault = none) (hf : s.fetch = .ok w) (hd : decode w = .ok i) :
    step s = settle s (exec i s) := by
  obtain ⟨hb, rfl⟩ := fetch_ok hf
  rw [step_of_fetched h hb, hd]

@[simp] theorem settle_next : settle s (.next t) = .next t := rfl
@[simp] theorem settle_fault {f : Fault} : settle s (.fault f) = .next (s.takeFault f) := rfl

/-- Settles O42: the step settles the outcome of `exec`. -/
theorem stepRunsTheDecodedInstruction : Obligations.StepRunsTheDecodedInstruction := by
  intro s w i h hf hd
  have hstep : step s = settle s (exec i s) := step_of_decoded h hf hd
  exact ⟨fun t he => by rw [hstep, he, settle_next], fun f he => by rw [hstep, he, settle_fault]⟩

/-! ### An instruction placed at `pc` (log 10) -/

/-- Placing a word at a `pc` in bounds writes its four bytes there. -/
theorem placeAtPc_inBounds (hb : ¬ outOfBounds s s.pc .word) :
    s.placeAtPc v = { s with mem := s.mem.write s.pc.toNat .word v } := by
  simp [State.placeAtPc, memWrite_inBounds hb]

/-- An access in bounds reads what was written there with the same width (R45, R47). -/
theorem memRead_write_same {addr : Word} {n : Width} {x : BitVec n.bits} (hb : ¬ outOfBounds s addr n) :
    State.memRead { s with mem := s.mem.write addr.toNat n x } addr n = .ok x := by
  have hb' : ¬ outOfBounds { s with mem := s.mem.write addr.toNat n x } addr n := hb
  rw [memRead_inBounds hb', State.mem_mem, Memory.read_write_same]

/-- A word placed at a `pc` in bounds is the word the next fetch reads (R56). -/
theorem fetch_placeAtPc (hb : ¬ outOfBounds s s.pc .word) : (s.placeAtPc v).fetch = .ok v := by
  rw [placeAtPc_inBounds hb]
  exact memRead_write_same hb

/-- A word of the opcode table decodes as its bytes in memory do. -/
theorem decode_tableWord {nbits n : Nat} (h : decodeTableWord nbits n = some i) :
    decode (tableWord nbits n) = .ok i := by
  rw [decodeTableWord_eq] at h
  cases hd : decode (tableWord nbits n) with
  | error e => rw [hd] at h; cases h
  | ok j => rw [hd] at h; cases h; rfl

/-- Settles O53: the placed word is fetched, and it decodes to the instruction. -/
theorem placedInstructionRunsNext : Obligations.PlacedInstructionRunsNext := by
  intro s nbits n i h hpc hd
  have hb : ¬ outOfBounds s s.pc .word := Nat.not_lt.2 hpc
  have hfault : (s.placeAtPc (tableWord nbits n)).fault = none := by rw [placeAtPc_inBounds hb]; exact h
  exact step_of_decoded hfault (fetch_placeAtPc hb) (decode_tableWord hd)

/-! ### The outcomes of a step, and runs (R7) -/

/-- The four cases of a step under the three outcomes of R7: executing and skipping both go on unfaulted. -/
theorem StepCase.outcome (hc : StepCase s t) :
    (s.fault ≠ none ∧ t = s) ∨ (s.fault = none ∧ t.fault = none) ∨
      (s.fault = none ∧ ∃ f, t = s.takeFault f ∧ step t = .next t) := by
  cases hc with
  | stays h => exact .inl ⟨Option.isSome_iff_ne_none.1 h, rfl⟩
  | faults f h _ => exact .inr (.inr ⟨h, f, rfl, step_of_faulted rfl⟩)
  | runs i t h _ _ _ he => exact .inr (.inl ⟨h, (exec_next_cases he).fault_eq.trans h⟩)
  | skips _ h => exact .inr (.inl ⟨h, h⟩)

/-- A run of `k + 1` steps, the first of which answers `b`, is the run of `k` steps from `b`. -/
theorem run_succ {M : Host.Core} {a b : M.State} (k : Nat) (h : M.step a = .next b) :
    M.run (k + 1) a = M.run k b := by
  rw [Host.Core.run, h]

/-- Every run answers a state, because every step does (`step_next`). -/
theorem run_next (k : Nat) (s : State) : ∃ t, Sys2Proof.core.run k s = .next t := by
  induction k generalizing s with
  | zero => exact ⟨s, rfl⟩
  | succ k ih =>
    obtain ⟨u, hu⟩ := step_next s
    obtain ⟨t, ht⟩ := ih u
    exact ⟨t, (run_succ (M := Sys2Proof.core) k hu).trans ht⟩

/-- Settles O47: by the four cases of a step, and by induction on the number of steps. -/
theorem stepHasExactlyThreeOutcomes : Obligations.StepHasExactlyThreeOutcomes := by
  refine ⟨fun s => ?_, run_next⟩
  obtain ⟨t, ht, hc⟩ := step_total s
  exact ⟨t, ht, hc.outcome⟩

end Sys2Proof.Machine
end

section
/-! SUPPORT. The registers, the state after reset, and the invariant: it holds after reset, and every step keeps
it (spec/10_state.md R20, R21, R26 to R28, R33). -/

namespace Sys2Proof.Machine

variable {s t : State} {i : Instr} {f : Fault}

/-! ### The state after reset (R33) -/

@[simp] theorem State.resetWith_readReg (c : Config) (r : RegIdx) :
    (State.resetWith c).readReg r = 0#32 := by
  unfold State.readReg
  split
  · rfl
  · exact Vector.getElem_replicate _

/-- A machine starts at an even address. -/
theorem resetPc_even : Config.resetPc.getLsbD 0 = false := by decide

/-- Settles O1: every field of the state after reset. -/
theorem resetLeavesEverythingZero : Obligations.ResetLeavesEverythingZero :=
  ⟨fun c => ⟨State.resetWith_readReg c, rfl, fun _ => rfl, rfl, rfl⟩, rfl⟩

/-- Settles O15: the register laws of R21. -/
theorem registerZeroReadsZeroAndDropsWrites : Obligations.RegisterZeroReadsZeroAndDropsWrites :=
  fun s r q v => ⟨s.readReg_zero, s.writeReg_zero v, s.readReg_writeReg r v q⟩

/-! ### The invariant holds after reset -/

/-- Of an unfaulted state the last clause of the invariant asks nothing. -/
theorem State.inv_of_unfaulted (hc : s.cfg.wf = true) (hm : s.mem.wf s.cfg.memSize = true)
    (hp : s.pc.getLsbD 0 = false) (hf : s.fault = none) : s.Inv :=
  ⟨hc, hm, hp, fun f h => by rw [hf] at h; cases h⟩

theorem State.resetWith_inv {c : Config} (hc : c.wf = true) : (State.resetWith c).Inv :=
  State.inv_of_unfaulted hc rfl resetPc_even rfl

theorem Session.start_inv {c : Config} (hc : c.wf = true) : (Session.start c).Inv :=
  ⟨State.resetWith_inv hc, fun _ => rfl⟩

/-- Settles O54: the default parameters are legal ones. -/
theorem resetMeetsTheInvariant : Obligations.ResetMeetsTheInvariant :=
  ⟨State.resetWith_inv (by decide), fun _ hc => ⟨State.resetWith_inv hc, Session.start_inv hc⟩⟩

/-! ### Every step keeps the invariant -/

/-- Which fault a state raises does not depend on its fault status. -/
theorem raisedFault_takeFault : raisedFault (s.takeFault f) = raisedFault s := rfl

/-- A taken fault stays the fault the state raises: nothing else has changed (R203). -/
theorem State.Inv.takeFault (hs : s.Inv) (hr : raisedFault s = some f) : (s.takeFault f).Inv where
  cfg_wf := hs.cfg_wf
  mem_wf := hs.mem_wf
  pc_even := hs.pc_even
  fault_true g hg := by
    cases hg
    exact raisedFault_takeFault.trans hr

/-- The next sequential instruction is at an even address. -/
theorem State.advance_pc_even (hp : s.pc.getLsbD 0 = false) : s.advance.pc.getLsbD 0 = false :=
  even_add hp rfl

/-- Skipping a word keeps the invariant of an unfaulted machine. -/
theorem State.Inv.advance (hs : s.Inv) (hf : s.fault = none) : s.advance.Inv :=
  State.inv_of_unfaulted hs.cfg_wf hs.mem_wf (State.advance_pc_even hs.pc_even) hf

/-- A well-formed instruction goes on at an even address: every transfer immediate is even (R26). -/
theorem Effect.pc_even (he : Effect i s t) (hi : i.wf = true) (hp : s.pc.getLsbD 0 = false) :
    t.pc.getLsbD 0 = false := by
  obtain hnext | ⟨imm, himm, htarget⟩ := he.pc_cases
  · rw [hnext]; exact State.advance_pc_even hp
  · rw [htarget]; exact even_add hp (transferImm_even hi himm)

/-- A well-formed instruction keeps the invariant of an unfaulted machine. -/
theorem Effect.inv (he : Effect i s t) (hi : i.wf = true) (hs : s.Inv) (hf : s.fault = none) : t.Inv :=
  State.inv_of_unfaulted (he.cfg_eq ▸ hs.cfg_wf) (he.mem_wf hs.mem_wf) (he.pc_even hi hs.pc_even)
    (he.fault_eq.trans hf)

/-- Each of the four cases of a step keeps the invariant. -/
theorem StepCase.inv (hc : StepCase s t) (hs : s.Inv) : t.Inv := by
  cases hc with
  | stays => exact hs
  | faults f _ hr => exact hs.takeFault hr
  | runs i t hf _ _ hd he => exact (exec_next_cases he).inv (decode_ok hd).wf hs hf
  | skips _ hf => exact hs.advance hf

/-- Settles O55: by the four cases of a step; an instruction that decodes is well formed. -/
theorem stepKeepsTheInvariant : Obligations.StepKeepsTheInvariant :=
  fun _ _ hs h => (step_cases h).inv hs

end Sys2Proof.Machine
end

section
/-! SUPPORT. What a step does to the registers, to the fault status and to `pc`: the writes column of R22, the
control-flow multiplexer of R25 and the fault status of R28 (spec/10_state.md). -/

namespace Sys2Proof.Machine

variable {s t : State} {i : Instr} {addr : Word} {n : Width} {rd : RegIdx} {v : Word}

/-! ### The registers (R22) -/

/-- A register reads after an instruction what it read before, unless it is the destination. -/
theorem Effect.readReg_cases (he : Effect i s t) (r : RegIdx) :
    t.readReg r = s.readReg r ∨ r ≠ 0#5 ∧ i.dest = some r := by
  have written : ∀ rd v, i.dest = some rd →
      (s.writeReg rd v).readReg r = s.readReg r ∨ r ≠ 0#5 ∧ i.dest = some r := fun rd v hd => by
    rw [State.readReg_writeReg, hd]
    by_cases h : r = rd ∧ rd ≠ 0#5
    · obtain ⟨rfl, h0⟩ := h
      exact .inr ⟨h0, rfl⟩
    · exact .inl (if_neg h)
  cases he with
  | result rd v hd => exact written rd v hd
  | link rd _ hd => exact written rd _ hd
  | taken | fallThrough | store => exact .inl rfl

/-- Settles O18: of the four cases of a step only the executed instruction writes a register. -/
theorem onlyTheDestinationRegisterChanges : Obligations.OnlyTheDestinationRegisterChanges := by
  intro s t r h hne
  cases step_cases h with
  | stays => exact absurd rfl hne
  | faults => exact absurd rfl hne
  | skips => exact absurd rfl hne
  | runs i t hf _ _ hd he =>
    obtain ⟨h0, hdest⟩ := ((exec_next_cases he).readReg_cases r).resolve_left hne
    exact ⟨h0, hf, i, hd, hdest⟩

/-! ### The fault status (R28) -/

/-- A step from a faulted machine keeps its fault (R204). -/
theorem StepCase.fault_of_faulted {f : Fault} (hc : StepCase s t) (hf : s.fault = some f) :
    t.fault = some f := by
  cases hc with
  | stays => exact hf
  | faults _ h | runs _ _ h | skips _ h => rw [hf] at h; cases h

/-- A step from an unfaulted machine sets the fault the state raises, or leaves none. -/
theorem StepCase.fault_of_unfaulted (hc : StepCase s t) (hf : s.fault = none) :
    t.fault = raisedFault s := by
  cases hc with
  | stays h => rw [hf] at h; cases h
  | faults _ _ hr => exact hr.symm
  | runs _ _ _ hr _ _ he => rw [hr, (exec_next_cases he).fault_eq, hf]
  | skips _ _ hr => rw [hr]; exact hf

/-- Only reset takes a faulted machine to an unfaulted one. -/
theorem HostCase.reset_of_clears {a : HostAction} {h k : Session} (hc : HostCase h a k)
    (hf : h.machine.fault ≠ none) (hk : k.machine.fault = none) : a = .reset := by
  obtain ⟨f, hf'⟩ := Option.ne_none_iff_exists'.1 hf
  cases hc with
  | reset => rfl
  | load => exact absurd hk hf
  | trigger t ht => rw [(step_cases ht).fault_of_faulted hf'] at hk; cases hk

/-- Settles O48: by the cases of a step and of an action of the host. -/
theorem faultStatusIsSetByAFaultingStepOnly : Obligations.FaultStatusIsSetByAFaultingStepOnly := by
  refine ⟨rfl, fun s t h => ?_, fun a h k hk => (hostAct_cases hk).reset_of_clears⟩
  cases hf : s.fault with
  | none => exact (step_cases h).fault_of_unfaulted hf
  | some f => exact (step_cases h).fault_of_faulted hf

/-! ### The next `pc` (R25) -/

theorem writeResult_next_pc (h : writeResult rd v s = .next t) : t.pc = s.pc + 4#32 := by
  cases h; simp

theorem loadFrom_next_pc {ext : BitVec n.bits → Word} (h : loadFrom addr n ext rd s = .next t) :
    t.pc = s.pc + 4#32 := by
  by_cases hb : outOfBounds s addr n
  · rw [loadFrom_outOfBounds hb] at h; cases h
  · rw [loadFrom_inBounds hb] at h; exact writeResult_next_pc h

theorem storeTo_next_pc (h : storeTo addr n v s = .next t) : t.pc = s.pc + 4#32 := by
  by_cases hb : outOfBounds s addr n
  · rw [storeTo_outOfBounds hb] at h; cases h
  · rw [storeTo_inBounds hb] at h; cases h; rfl

/-- A branch goes on at its target exactly when the condition its comparison decides holds. -/
theorem branchIf_next_pc {c : Bool} {target : Word} {P : Prop} [Decidable P] (hc : c = true ↔ P)
    (h : branchIf c target s = .next t) : t.pc = if P then target else s.pc + 4#32 := by
  cases h
  by_cases hP : P
  · rw [if_pos hP, if_pos (hc.2 hP)]; rfl
  · rw [if_neg hP, if_neg (mt hc.1 hP)]; rfl

/-- An instruction that completes goes on where the control-flow multiplexer says. -/
theorem exec_next_pc (h : exec i s = .next t) : t.pc = controlFlow s i := by
  cases i with
  | lui | auipc => exact writeResult_next_pc h
  | add | sub | sll | slt | sltu | xor | srl | sra | or | and => exact writeResult_next_pc h
  | addi | slti | sltiu | xori | ori | andi | slli | srli | srai => exact writeResult_next_pc h
  | lb | lh | lw | lbu | lhu => exact loadFrom_next_pc h
  | sb | sh | sw => exact storeTo_next_pc h
  | jal => cases h; rfl
  | beq => exact branchIf_next_pc (by simp [equalBits]) h
  | bne => exact branchIf_next_pc (by simp [equalBits]) h
  | blt | bge => exact branchIf_next_pc (by simp [lessSigned]) h
  | bltu | bgeu => exact branchIf_next_pc (by simp [lessUnsigned]) h

/-- Settles O50: by the cases of a step. -/
theorem nextPcIsTheControlFlowMultiplexers : Obligations.NextPcIsTheControlFlowMultiplexers := by
  intro s t hf h
  cases step_cases h with
  | stays hs => rw [hf] at hs; cases hs
  | faults f _ hr => simp [hr]
  | runs i t _ hr _ hd he => simpa [hr, hd] using exec_next_pc he
  | skips e _ hr _ hd => simp [hr, hd]

end Sys2Proof.Machine
end

section
/-! SUPPORT. The two sides of a register access (spec/10_state.md R21, R22): what an instruction does with its
result when `rd` is 0, and that it depends on no register but its sources. Each is proved once for each shape of
effect of Machine/Ops.lean, and an instruction has what its shape has. -/

namespace Sys2Proof.Machine

variable {s t : State} {i : Instr} {addr : Word} {n : Width} {rd r : RegIdx} {v x y : Word}

/-! ### `rd = 0` (R21) -/

/-- The state `t` with the register file of `s`. -/
def State.keepRegs (s t : State) : State := { t with x := s.x }

/-- A write before the rest of an effect is dropped by putting the register file back. -/
theorem State.keepRegs_writeReg_setPc : s.keepRegs ((s.writeReg rd v).setPc x) = s.setPc x :=
  congrArg (State.setPc · x) (s.writeReg_restore rd v)

@[simp] theorem mapNext_next (g : State → State) : mapNext g (.next t) = .next (g t) := rfl
@[simp] theorem mapNext_fault (g : State → State) (f : Fault) : mapNext g (.fault f) = .fault f := rfl

theorem writeResult_zero : writeResult 0#5 v s = mapNext s.keepRegs (writeResult rd v s) := by
  simp [writeResult, State.advance, State.keepRegs_writeReg_setPc]

theorem jumpAndLink_zero : jumpAndLink 0#5 x s = mapNext s.keepRegs (jumpAndLink rd x s) := by
  simp [jumpAndLink, State.keepRegs_writeReg_setPc]

/-- The access of a load is made and checked whatever `rd` is (decision D28). -/
theorem loadFrom_zero {ext : BitVec n.bits → Word} :
    loadFrom addr n ext 0#5 s = mapNext s.keepRegs (loadFrom addr n ext rd s) := by
  by_cases hb : outOfBounds s addr n
  · simp [loadFrom_outOfBounds hb]
  · rw [loadFrom_inBounds hb, loadFrom_inBounds hb]; exact writeResult_zero

theorem branchIf_keepRegs {c : Bool} : branchIf c x s = mapNext s.keepRegs (branchIf c x s) := by
  cases c <;> rfl

theorem storeTo_keepRegs : storeTo addr n v s = mapNext s.keepRegs (storeTo addr n v s) := by
  by_cases hb : outOfBounds s addr n
  · simp [storeTo_outOfBounds hb]
  · rw [storeTo_inBounds hb]; rfl

/-- With the register file put back afterwards, an instruction does what it does with `rd` 0. -/
theorem exec_withDest_zero (i : Instr) (rd : RegIdx) (s : State) :
    exec (i.withDest 0#5) s = mapNext s.keepRegs (exec (i.withDest rd) s) := by
  cases i with
  | lui | auipc => exact writeResult_zero
  | add | sub | sll | slt | sltu | xor | srl | sra | or | and => exact writeResult_zero
  | addi | slti | sltiu | xori | ori | andi | slli | srli | srai => exact writeResult_zero
  | jal => exact jumpAndLink_zero
  | lb | lh | lw | lbu | lhu => exact loadFrom_zero
  | beq | bne | blt | bge | bltu | bgeu => exact branchIf_keepRegs
  | sb | sh | sw => exact storeTo_keepRegs

/-- Settles O16: by the shape of effect of each instruction. -/
theorem destinationZeroDropsOnlyTheRegisterWrite : Obligations.DestinationZeroDropsOnlyTheRegisterWrite :=
  fun i rd s => ⟨s.readReg_zero, exec_withDest_zero i rd s⟩

/-! ### Registers an instruction does not read (R22) -/

/-- The write of `v` to `r` made after an instruction whose destination is `d`: the instruction's own result
stands if `r` is that destination. -/
def State.writeAfter (d : Option RegIdx) (r : RegIdx) (v : Word) (t : State) : State :=
  if d = some r then t else t.writeReg r v

theorem State.writeReg_setPc (s : State) : (s.writeReg r v).setPc x = (s.setPc x).writeReg r v := by
  unfold State.writeReg; split <;> rfl

theorem State.writeReg_withMem (s : State) (m : Memory) :
    { s.writeReg r v with mem := m } = State.writeReg { s with mem := m } r v := by
  unfold State.writeReg; split <;> rfl

theorem State.writeReg_advance (s : State) : (s.writeReg r v).advance = s.advance.writeReg r v := by
  simp [State.advance, State.writeReg_setPc]

@[simp] theorem State.writeAfter_pc (d : Option RegIdx) : (State.writeAfter d r v s).pc = s.pc := by
  unfold State.writeAfter; split <;> simp

/-- A write before another write is a write after it, or lost when both are to one register. -/
theorem State.writeReg_writeReg (s : State) :
    (s.writeReg r v).writeReg rd x = State.writeAfter (some rd) r v (s.writeReg rd x) := by
  by_cases h : rd = r
  · subst h; simp [State.writeAfter]
  · simp [State.writeAfter, h, State.writeReg_comm s v (Ne.symm h) x]

theorem State.writeAfter_setPc (d : Option RegIdx) :
    (State.writeAfter d r v s).setPc x = State.writeAfter d r v (s.setPc x) := by
  unfold State.writeAfter
  split
  · rfl
  · exact s.writeReg_setPc

/-- The bounds of an access do not depend on the registers. -/
theorem outOfBounds_writeReg : outOfBounds (s.writeReg r v) addr n ↔ outOfBounds s addr n := by
  simp [outOfBounds]

theorem writeResult_writeReg (h : y = x) :
    writeResult rd y (s.writeReg r v) = mapNext (State.writeAfter (some rd) r v) (writeResult rd x s) := by
  subst h
  simp [writeResult, State.advance, State.writeReg_writeReg, State.writeAfter_setPc]

theorem jumpAndLink_writeReg (h : y = x) :
    jumpAndLink rd y (s.writeReg r v) = mapNext (State.writeAfter (some rd) r v) (jumpAndLink rd x s) := by
  subst h
  simp [jumpAndLink, State.writeReg_writeReg, State.writeAfter_setPc]

theorem branchIf_writeReg {c c' : Bool} (hc : c' = c) (h : y = x) :
    branchIf c' y (s.writeReg r v) = mapNext (State.writeAfter none r v) (branchIf c x s) := by
  subst hc h
  cases c' with
  | true => exact congrArg Host.Outcome.next s.writeReg_setPc
  | false => exact congrArg Host.Outcome.next s.writeReg_advance

theorem loadFrom_writeReg {addr' : Word} {ext : BitVec n.bits → Word} (h : addr' = addr) :
    loadFrom addr' n ext rd (s.writeReg r v) =
      mapNext (State.writeAfter (some rd) r v) (loadFrom addr n ext rd s) := by
  subst h
  by_cases hb : outOfBounds s addr' n
  · rw [loadFrom_outOfBounds hb, loadFrom_outOfBounds (outOfBounds_writeReg.2 hb), mapNext_fault]
  · rw [loadFrom_inBounds hb, loadFrom_inBounds (mt outOfBounds_writeReg.1 hb)]
    exact writeResult_writeReg (by simp)

theorem storeTo_writeReg {addr' : Word} (h : addr' = addr) (hx : y = x) :
    storeTo addr' n y (s.writeReg r v) = mapNext (State.writeAfter none r v) (storeTo addr n x s) := by
  subst h hx
  by_cases hb : outOfBounds s addr' n
  · rw [storeTo_outOfBounds hb, storeTo_outOfBounds (outOfBounds_writeReg.2 hb), mapNext_fault]
  · rw [storeTo_inBounds hb, storeTo_inBounds (mt outOfBounds_writeReg.1 hb)]
    simp only [State.writeReg_mem, State.writeReg_withMem, State.writeReg_advance]
    rfl

/-- Writing a register an instruction does not read is writing it afterwards. -/
theorem exec_writeReg (hr : r ∉ i.sources) :
    exec i (s.writeReg r v) = mapNext (State.writeAfter i.dest r v) (exec i s) := by
  have hread : ∀ q ∈ i.sources, (s.writeReg r v).readReg q = s.readReg q := fun q hq =>
    s.readReg_writeReg_other v (ne_of_mem_of_not_mem hq hr)
  cases i <;> simp only [Instr.sources, List.forall_mem_cons] at hread
  case lui | auipc => exact writeResult_writeReg (by simp)
  case add | sub | slt | sltu | xor | or | and => exact writeResult_writeReg (by simp [hread])
  case sll | srl | sra => exact writeResult_writeReg (by simp [hread, State.shiftAmount])
  case addi | slti | sltiu | xori | ori | andi => exact writeResult_writeReg (by simp [hread])
  case slli | srli | srai => exact writeResult_writeReg (by simp [hread])
  case jal => exact jumpAndLink_writeReg (by simp)
  case lb | lh | lw | lbu | lhu => exact loadFrom_writeReg (by simp [hread])
  case beq | bne | blt | bge | bltu | bgeu => exact branchIf_writeReg (by simp [hread]) (by simp)
  case sb | sh | sw => exact storeTo_writeReg (by simp [hread]) (by simp [hread])

/-- Settles O17: by the shape of effect of each instruction. -/
theorem unreadRegisterHasNoInfluence : Obligations.UnreadRegisterHasNoInfluence :=
  fun _ _ _ _ hr => exec_writeReg hr

end Sys2Proof.Machine
end

section
/-! SUPPORT. The two memory primitives, what an access of one width sees of a write of another, and what the
stores and the fetch do with memory (spec/20_memory.md R43 to R50, R56, R57). -/

namespace Sys2Proof.Machine

variable {s t : State} {i : Instr} {addr : Word} {m n : Width} {rd rs1 rs2 : RegIdx} {imm : Word}

/-! ### The bytes of a wide write, and narrower reads of them (R44 to R47) -/

/-- Byte `k` of a write, counted from the most significant, stands at `a + k`. -/
theorem Memory.get_write_inside {mem : Memory} {a k : Nat} {v : BitVec n.bits} (hk : k < n.bytes) :
    (mem.write a n v).get (a + k) = v.extractLsb' (8 * (n.bytes - k - 1)) 8 := by
  cases n with
  | byte =>
    obtain rfl : k = 0 := Nat.lt_one_iff.1 hk
    exact Memory.get_set_same.trans BitVec.extractLsb'_eq_self.symm
  | half => rw [Width.bytes_half] at hk; interval_cases k <;> simp [Memory.get_write_half]
  | word => rw [Width.bytes_word] at hk; interval_cases k <;> simp [Memory.get_write_word]

/-- A read inside the bytes of a write gives the bits of the value that stand there, `k` counted from the most
significant byte: adjacent bytes of the value, joined, are a wider slice of it. -/
theorem Memory.read_write_inside {mem : Memory} {a k : Nat} {v : BitVec n.bits}
    (hk : k + m.bytes ≤ n.bytes) :
    (mem.write a n v).read (a + k) m = v.extractLsb' (8 * (n.bytes - k - m.bytes)) m.bits := by
  cases m with
  | byte => exact Memory.get_write_inside hk
  | half =>
    rw [Width.bytes_half] at hk
    simp only [Memory.read, Nat.add_assoc, Width.bytes_half]
    rw [Memory.get_write_inside (by omega), Memory.get_write_inside (by omega),
      BitVec.extractLsb'_append_extractLsb'_eq_extractLsb' (by omega), Nat.sub_sub, Nat.sub_sub]
  | word =>
    rw [Width.bytes_word] at hk
    simp only [Memory.read, Nat.add_assoc, Width.bytes_word]
    rw [Memory.get_write_inside (by omega), Memory.get_write_inside (by omega),
      Memory.get_write_inside (by omega), Memory.get_write_inside (by omega),
      BitVec.extractLsb'_append_extractLsb'_eq_extractLsb' (by omega),
      BitVec.extractLsb'_append_extractLsb'_eq_extractLsb' (by omega),
      BitVec.extractLsb'_append_extractLsb'_eq_extractLsb' (by omega), Nat.sub_sub, Nat.sub_sub]

/-- The most significant byte of a word in memory is the one at its address (R45). -/
theorem Memory.read_word_high_byte {mem : Memory} {a : Nat} :
    (mem.read a .word).extractLsb' 24 8 = mem.get a := by
  simp only [Memory.read]
  rw [BitVec.extractLsb'_append_eq_of_le (by omega), BitVec.extractLsb'_append_eq_of_le (by omega)]
  exact BitVec.extractLsb'_append_eq_left

/-! ### `MemRead` (R48, R50, R56) -/

/-- Settles O35: `MemRead` in bounds and out of bounds. -/
theorem memReadIsBigEndianAndBoundsChecked : Obligations.MemReadIsBigEndianAndBoundsChecked :=
  fun _ _ =>
    ⟨fun h => memRead_inBounds (n := .byte) (Nat.not_lt.2 h),
      fun h => memRead_inBounds (n := .half) (Nat.not_lt.2 h),
      fun h => memRead_inBounds (n := .word) (Nat.not_lt.2 h), fun _ h => memRead_outOfBounds h, rfl⟩

/-- Settles O43: the fetch is `MemRead(pc, 4)`. -/
theorem fetchReadsTheWordAtPcOrFaults : Obligations.FetchReadsTheWordAtPcOrFaults :=
  fun _ => ⟨fun h => memRead_inBounds (n := .word) (Nat.not_lt.2 h), step_of_unfetched⟩

/-! ### `MemWrite` (R47, R49, R50) -/

/-- Settles O36: `MemWrite` in bounds and out of bounds. -/
theorem memWriteChangesExactlyItsBytes : Obligations.MemWriteChangesExactlyItsBytes := by
  refine fun s addr n v => ⟨fun h => ?_, fun h => memWrite_outOfBounds h⟩
  exact ⟨_, memWrite_inBounds (Nat.not_lt.2 h), fun _ => Memory.get_write_inside,
    fun _ => Memory.get_write_outside, fun _ => rfl, rfl, rfl, rfl⟩

/-- The inversion of `MemWrite`: it was in bounds, and wrote. -/
theorem memWrite_ok {v : BitVec n.bits} (h : s.memWrite addr n v = .ok t) :
    ¬ outOfBounds s addr n ∧ t = { s with mem := s.mem.write addr.toNat n v } := by
  by_cases hb : outOfBounds s addr n
  · rw [memWrite_outOfBounds hb] at h; cases h
  · rw [memWrite_inBounds hb] at h; cases h; exact ⟨hb, rfl⟩

/-- No address inside an access wraps, in a memory of at most `2^32` bytes (R8). -/
theorem toNat_add_of_inBounds {k : Nat} (hsize : s.cfg.memSize ≤ 2 ^ 32) (hb : ¬ outOfBounds s addr n)
    (hk : k < n.bytes) : (addr + BitVec.ofNat 32 k).toNat = addr.toNat + k := by
  unfold outOfBounds at hb
  have hsum : addr.toNat + k < 2 ^ 32 := by omega
  rw [BitVec.toNat_add, BitVec.toNat_ofNat, Nat.add_mod_mod, Nat.mod_eq_of_lt hsum]

/-- `MemRead` inside the bytes of a `MemWrite`, `k` bytes after its first. -/
theorem memRead_of_memWrite {k : Nat} {v : BitVec n.bits} (hsize : s.cfg.memSize ≤ 2 ^ 32)
    (h : s.memWrite addr n v = .ok t) (hk : k + m.bytes ≤ n.bytes) :
    t.memRead (addr + BitVec.ofNat 32 k) m =
      .ok (v.extractLsb' (8 * (n.bytes - k - m.bytes)) m.bits) := by
  obtain ⟨hb, rfl⟩ := memWrite_ok h
  have hpos : 0 < m.bytes := by cases m <;> decide
  have ha := toNat_add_of_inBounds (k := k) hsize hb (by omega)
  rw [memRead_inBounds, ha, State.mem_mem, Memory.read_write_inside hk]
  unfold outOfBounds at hb ⊢
  rw [ha, State.mem_cfg]
  omega

/-- Settles O37: each access lies inside the bytes of the write, at the offset its address says. -/
theorem mixedWidthAccesses : Obligations.MixedWidthAccesses := by
  refine ⟨fun s t addr v hsize h => ?_, fun s t addr b hbound h => ?_, fun m => ?_⟩
  · have hread : ∀ (m : Width) (k : Nat), k + m.bytes ≤ 4 → t.memRead (addr + BitVec.ofNat 32 k) m =
        .ok (v.extractLsb' (8 * (4 - k - m.bytes)) m.bits) := fun _ _ => memRead_of_memWrite hsize h
    have hfirst : ∀ m : Width, m.bytes ≤ 4 → t.memRead addr m =
        .ok (v.extractLsb' (8 * (4 - m.bytes)) m.bits) := fun m hm => by simpa using hread m 0 (by omega)
    have hword := hfirst .word (by decide)
    exact ⟨hfirst .byte (by decide), hread .byte 3 (by decide), hfirst .half (by decide),
      hread .half 2 (by decide), hread .half 1 (by decide), by simpa using hword⟩
  · obtain ⟨-, rfl⟩ := memWrite_ok h
    exact ⟨_, memRead_inBounds (n := .word) (Nat.not_lt.2 hbound),
      Memory.read_word_high_byte.trans Memory.get_set_same⟩
  · have hbyte : ∀ k, k < 4 → (m.write 0 .word 0x123450B7#32).get (0 + k) =
        (0x123450B7#32).extractLsb' (8 * (4 - k - 1)) 8 := fun _ => Memory.get_write_inside (n := .word)
    exact ⟨hbyte 0 (by decide), hbyte 1 (by decide), hbyte 2 (by decide), hbyte 3 (by decide)⟩

/-! ### SW, and the accesses after it (R45, R57, R133, R163) -/

@[simp] theorem State.advance_memRead : s.advance.memRead addr n = s.memRead addr n := rfl

/-- SW in bounds completes, and writes the stored register. -/
theorem execSw_inBounds (hb : ¬ outOfBounds s (s.readReg rs1 + imm) .word) :
    exec (.sw rs1 rs2 imm) s = .next (State.advance
      { s with mem := s.mem.write (s.readReg rs1 + imm).toNat .word (s.readReg rs2) }) := by
  simp [exec, execSw, storeTo_inBounds hb]

/-- SW out of bounds raises. -/
theorem execSw_outOfBounds (hb : outOfBounds s (s.readReg rs1 + imm) .word) :
    exec (.sw rs1 rs2 imm) s = .fault (.boundsViolation (s.readReg rs1 + imm) .word) :=
  storeTo_outOfBounds hb

/-- After an SW that completes, `pc` is at the next instruction, every register reads as before, and the word at
the address of the store is the stored register's. -/
theorem execSw_next (h : exec (.sw rs1 rs2 imm) s = .next t) :
    t.pc = s.pc + 4#32 ∧ (∀ r, t.readReg r = s.readReg r) ∧
      t.memRead (s.readReg rs1 + imm) .word = .ok (s.readReg rs2) := by
  by_cases hb : outOfBounds s (s.readReg rs1 + imm) .word
  · rw [execSw_outOfBounds hb] at h; cases h
  · rw [execSw_inBounds hb] at h
    cases h
    exact ⟨rfl, fun _ => rfl, State.advance_memRead.trans (memRead_write_same hb)⟩

/-- LW completes with the word its `MemRead` gives. -/
theorem execLw_of_memRead {v : Word} (h : s.memRead (s.readReg rs1 + imm) .word = .ok v) :
    ∃ t, exec (.lw rd rs1 imm) s = .next t ∧ WritesOnly rd v (s.pc + 4#32) s t := by
  have hexec : exec (.lw rd rs1 imm) s = writeResult rd (zext v) s := by
    simp [exec, execLw, loadFrom, h]
  rw [hexec]
  exact writeResult_completes_with (BitVec.setWidth_eq v)

/-- Settles O38: SW in bounds, then LW from the address it wrote. -/
theorem storeWordThenLoadWordRoundTrips : Obligations.StoreWordThenLoadWordRoundTrips := by
  intro s rs1 rs2 rd imm hrd hbound
  have hsw := execSw_inBounds (rs2 := rs2) (Nat.not_lt.2 hbound)
  obtain ⟨-, hregs, hread⟩ := execSw_next hsw
  rw [← hregs rs1] at hread
  obtain ⟨u, hlw, hu⟩ := execLw_of_memRead (rd := rd) hread
  exact ⟨_, u, hsw, hlw, hu.dest hrd⟩

/-- Settles O41: the fetch after the store is the read of the word stored. -/
theorem storedWordIsFetchedNext : Obligations.StoredWordIsFetchedNext := by
  intro s t rs1 rs2 imm h haddr
  obtain ⟨hpc, -, hread⟩ := execSw_next h
  rwa [haddr, ← hpc] at hread

/-! ### Only stores change memory (R43) -/

/-- An instruction that makes a data access and has no destination is a store. -/
theorem mnemonic_of_access_without_dest (hd : i.dest = none) (ha : dataAccess s i = some (addr, n)) :
    mnemonic i ∈ ["SB", "SH", "SW"] := by
  cases i with
  | sb | sh | sw => simp [mnemonic]
  | lb | lh | lw | lbu | lhu => cases hd
  | _ => cases ha

/-- A byte reads after an instruction what it read before, unless it lies in the access of a store. -/
theorem Effect.get_cases (he : Effect i s t) (a : Nat) :
    t.mem.get a = s.mem.get a ∨ i.dest = none ∧
      ∃ addr n, dataAccess s i = some (addr, n) ∧ addr.toNat ≤ a ∧ a < addr.toNat + n.bytes := by
  cases he with
  | result | link => exact .inl (by simp)
  | taken | fallThrough => exact .inl rfl
  | store addr n w hd ha hb =>
    by_cases hin : addr.toNat ≤ a ∧ a < addr.toNat + n.bytes
    · exact .inr ⟨hd, addr, n, ha, hin⟩
    · exact .inl (Memory.get_write_outside (by omega))

/-- Settles O40: of the four cases of a step only the executed instruction writes memory. -/
theorem onlyStoresChangeMemory : Obligations.OnlyStoresChangeMemory := by
  intro s t a h hne
  cases step_cases h with
  | stays => exact absurd rfl hne
  | faults => exact absurd rfl hne
  | skips => exact absurd rfl hne
  | runs i t hf _ _ hd he =>
    obtain ⟨hdest, addr, n, ha, hin⟩ := ((exec_next_cases he).get_cases a).resolve_left hne
    exact ⟨hf, i, addr, n, hd, mnemonic_of_access_without_dest hdest ha, ha, hin⟩

end Sys2Proof.Machine
end

section
/-! SUPPORT. The two round trips of the encoding, and the five immediates: every bit, the ranges, and that branch
and jump offsets are even (spec/30_encoding.md R72 to R78, R81). -/

namespace Sys2Proof

open Laws

variable {w : Word} {k : Nat}

/-! ### The round trips -/

/-- Settles O9: by the round trip of each of the 36 instructions. -/
theorem decodeOfEncodeIsTheInstruction : Obligations.DecodeOfEncodeIsTheInstruction := by
  intro i
  cases i with
  | lui => exact RoundTrip.lui _ _
  | auipc => exact RoundTrip.auipc _ _
  | jal => exact RoundTrip.jal _ _
  | beq => exact RoundTrip.beq _ _ _
  | bne => exact RoundTrip.bne _ _ _
  | blt => exact RoundTrip.blt _ _ _
  | bge => exact RoundTrip.bge _ _ _
  | bltu => exact RoundTrip.bltu _ _ _
  | bgeu => exact RoundTrip.bgeu _ _ _
  | sb => exact RoundTrip.sb _ _ _
  | sh => exact RoundTrip.sh _ _ _
  | sw => exact RoundTrip.sw _ _ _
  | add => exact RoundTrip.add _ _ _
  | sub => exact RoundTrip.sub _ _ _
  | sll => exact RoundTrip.sll _ _ _
  | slt => exact RoundTrip.slt _ _ _
  | sltu => exact RoundTrip.sltu _ _ _
  | xor => exact RoundTrip.xor _ _ _
  | srl => exact RoundTrip.srl _ _ _
  | sra => exact RoundTrip.sra _ _ _
  | or => exact RoundTrip.or _ _ _
  | and => exact RoundTrip.and _ _ _
  | lb => exact RoundTrip.lb _ _ _
  | lh => exact RoundTrip.lh _ _ _
  | lw => exact RoundTrip.lw _ _ _
  | lbu => exact RoundTrip.lbu _ _ _
  | lhu => exact RoundTrip.lhu _ _ _
  | addi => exact RoundTrip.addi _ _ _
  | slti => exact RoundTrip.slti _ _ _
  | sltiu => exact RoundTrip.sltiu _ _ _
  | xori => exact RoundTrip.xori _ _ _
  | ori => exact RoundTrip.ori _ _ _
  | andi => exact RoundTrip.andi _ _ _
  | slli => exact RoundTrip.slli _ _ _
  | srli => exact RoundTrip.srli _ _ _
  | srai => exact RoundTrip.srai _ _ _

/-- Settles O10: by the inversion of the decoder. -/
theorem encodeOfDecodeIsTheWord : Obligations.EncodeOfDecodeIsTheWord :=
  fun _ _ h => (decode_ok h).encode_eq

/-- Settles O11: by the inversion of the decoder. -/
theorem decodedInstructionIsWellFormed : Obligations.DecodedInstructionIsWellFormed :=
  fun _ _ h => (decode_ok h).wf

/-- Settles O7: the decoder evaluated on the eight words. -/
theorem sampleWordsDecode : Obligations.SampleWordsDecode := by
  unfold Obligations.SampleWordsDecode
  decide

/-! ### The bits of the immediates (R73 to R77)

Bit `k` of a sign extension is bit `k` of the joined fields or their top bit, and a bit of joined fields is a bit
of one of them; what is left is to compare the bounds on `k`. -/

theorem immI_getLsbD (hk : k < 32) :
    (immI w).getLsbD k = if k < 11 then w.getLsbD (k + 20) else w.getLsbD 31 := by
  simp only [immI, getLsbD_sext, BitVec.msb_eq_getLsbD_last, BitVec.getLsbD_extractLsb']
  grind

theorem immU_getLsbD (hk : k < 32) : (immU w).getLsbD k = if k < 12 then false else w.getLsbD k := by
  simp only [immU, BitVec.getLsbD_append, BitVec.getLsbD_extractLsb']
  grind

theorem immS_getLsbD (hk : k < 32) :
    (immS w).getLsbD k =
      if k < 5 then w.getLsbD (k + 7) else if k < 11 then w.getLsbD (k + 20) else w.getLsbD 31 := by
  simp only [immS, getLsbD_sext, BitVec.msb_eq_getLsbD_last, BitVec.getLsbD_append,
    BitVec.getLsbD_extractLsb']
  grind

theorem immB_getLsbD (hk : k < 32) :
    (immB w).getLsbD k =
      if k = 0 then false else if k < 5 then w.getLsbD (k + 7) else if k < 11 then w.getLsbD (k + 20)
        else if k = 11 then w.getLsbD 7 else w.getLsbD 31 := by
  simp only [immB, getLsbD_sext, BitVec.msb_eq_getLsbD_last, BitVec.getLsbD_append,
    BitVec.getLsbD_extractLsb']
  grind

theorem immJ_getLsbD (hk : k < 32) :
    (immJ w).getLsbD k =
      if k = 0 then false else if k < 11 then w.getLsbD (k + 20) else if k = 11 then w.getLsbD 20
        else if k < 20 then w.getLsbD k else w.getLsbD 31 := by
  simp only [immJ, getLsbD_sext, BitVec.msb_eq_getLsbD_last, BitVec.getLsbD_append,
    BitVec.getLsbD_extractLsb']
  grind

/-- Settles O5: each of the three immediates has the bits the spec gives it. -/
theorem immSImmBImmJBitByBit : Obligations.ImmSImmBImmJBitByBit :=
  fun _ _ hk => ⟨immS_getLsbD hk, immB_getLsbD hk, immJ_getLsbD hk⟩

/-! ### Ranges and evenness -/

/-- The sign extension of `n` bits lies in the signed range of `n` bits (R10). -/
theorem toInt_sext_range {n : Nat} (v : BitVec n) (hn : n ≤ 32) :
    -2 ^ (n - 1) ≤ (sext v).toInt ∧ (sext v).toInt < 2 ^ (n - 1) := by
  rw [toInt_sext v hn]
  exact ⟨BitVec.le_toInt v, BitVec.toInt_lt⟩

/-- Settles O4: the bits of `immI` and `immU`, and the signed range of the 12 bits of `immI`. -/
theorem immIAndImmUBitByBit : Obligations.ImmIAndImmUBitByBit := by
  intro w
  obtain ⟨lo, hi⟩ : -2048 ≤ (immI w).toInt ∧ (immI w).toInt < 2048 := toInt_sext_range _ (by omega)
  exact ⟨fun k hk => ⟨immI_getLsbD hk, immU_getLsbD hk⟩, lo, Int.le_of_lt_add_one hi⟩

/-- Settles O6: the signed ranges of 12, 13 and 21 bits; an even offset does not reach the odd upper end. -/
theorem offsetRangesAndEvenness : Obligations.OffsetRangesAndEvenness := by
  intro w
  have rangeS : -2048 ≤ (immS w).toInt ∧ (immS w).toInt < 2048 := toInt_sext_range _ (by omega)
  have rangeB : -4096 ≤ (immB w).toInt ∧ (immB w).toInt < 4096 := toInt_sext_range _ (by omega)
  have rangeJ : -1048576 ≤ (immJ w).toInt ∧ (immJ w).toInt < 1048576 := toInt_sext_range _ (by omega)
  have evenB : (immB w).toInt % 2 = 0 := toInt_even (immB_bit0 w)
  have evenJ : (immJ w).toInt % 2 = 0 := toInt_even (immJ_bit0 w)
  omega

end Sys2Proof
end

section
/-! SUPPORT. The decoder opcode by opcode: the rows of the decode procedure and the words it does not recognise
(spec/30_encoding.md R79 to R83). -/

namespace Sys2Proof

variable {w : Word}

/-! ### The rows of the decode procedure (R81) -/

theorem decode_of_branch (h : opcodeOf w = 0b1100011#7) : decode w = decodeBranch w := by
  simp only [decode, h]

theorem decode_of_store (h : opcodeOf w = 0b0100011#7) : decode w = decodeStore w := by
  simp only [decode, h]

theorem decode_of_op (h : opcodeOf w = 0b0110011#7) : decode w = decodeOp w := by
  simp only [decode, h]

theorem decode_of_load (h : opcodeOf w = 0b0000011#7) : decode w = decodeLoad w := by
  simp only [decode, h]

theorem decode_of_opImm (h : opcodeOf w = 0b0010011#7) : decode w = decodeOpImm w := by
  simp only [decode, h]

theorem decode_of_shiftImm (h : opcodeOf w = 0b0010011#7)
    (h3 : funct3Of w = 0b001#3 ∨ funct3Of w = 0b101#3) : decode w = decodeShiftImm w := by
  rw [decode_of_opImm h]
  obtain h3 | h3 := h3 <;> simp [decodeOpImm, h3]

/-- Settles O8: the opcode selects the family, and `funct3` and `funct7` select the arm of its decoder. -/
theorem decoderReadsTheFieldsOfEveryRow : Obligations.DecoderReadsTheFieldsOfEveryRow := by
  intro w
  refine ⟨?lui, ?auipc, ?jal, ?beq, ?bne, ?blt, ?bge, ?bltu, ?bgeu, ?sb, ?sh, ?sw, ?add, ?sub, ?slt, ?sltu,
    ?xor, ?or, ?and, ?sll, ?srl, ?sra, ?lb, ?lh, ?lw, ?lbu, ?lhu, ?addi, ?slti, ?sltiu, ?xori, ?ori, ?andi,
    ?slli, ?srli, ?srai⟩
  case lui | auipc | jal => intro hop; simp only [decode, hop]
  case beq | bne | blt | bge | bltu | bgeu =>
    intro hop h3; simp only [decode_of_branch hop, decodeBranch, h3]
  case sb | sh | sw => intro hop h3; simp only [decode_of_store hop, decodeStore, h3]
  case add | sub | slt | sltu | xor | or | and | sll | srl | sra =>
    intro hop h3 h7; simp only [decode_of_op hop, decodeOp, h3, h7]
  case lb | lh | lw | lbu | lhu => intro hop h3; simp only [decode_of_load hop, decodeLoad, h3]
  case addi | slti | sltiu | xori | ori | andi =>
    intro hop h3; simp only [decode_of_opImm hop, decodeOpImm, h3]
  case slli | srli | srai =>
    intro hop h3 h7; simp only [decode_of_shiftImm hop (by simp [h3]), decodeShiftImm, h3, h7]

/-! ### The unrecognised words of each opcode (R83) -/

theorem funct3_cases (f3 : BitVec 3) :
    f3 = 0#3 ∨ f3 = 1#3 ∨ f3 = 2#3 ∨ f3 = 3#3 ∨ f3 = 4#3 ∨ f3 = 5#3 ∨ f3 = 6#3 ∨ f3 = 7#3 := by
  revert f3; decide

/-- Class (b). -/
theorem decodeBranch_error_iff :
    (∃ e, decodeBranch w = .error e) ↔ funct3Of w = 0b010#3 ∨ funct3Of w = 0b011#3 := by
  obtain h | h | h | h | h | h | h | h := funct3_cases (funct3Of w) <;> simp [decodeBranch, h]

/-- Class (c). -/
theorem decodeStore_error_iff : (∃ e, decodeStore w = .error e) ↔ 3 ≤ (funct3Of w).toNat := by
  obtain h | h | h | h | h | h | h | h := funct3_cases (funct3Of w) <;> simp [decodeStore, h]

/-- Class (d). -/
theorem decodeLoad_error_iff :
    (∃ e, decodeLoad w = .error e) ↔
      funct3Of w = 0b011#3 ∨ funct3Of w = 0b110#3 ∨ funct3Of w = 0b111#3 := by
  obtain h | h | h | h | h | h | h | h := funct3_cases (funct3Of w) <;> simp [decodeLoad, h]

/-- Class (e): every `funct3` is taken with `funct7` 0000000, two with 0100000, none with another. -/
theorem decodeOp_error_iff :
    (∃ e, decodeOp w = .error e) ↔ funct7Of w ≠ 0b0000000#7 ∧
      ¬ (funct7Of w = 0b0100000#7 ∧ (funct3Of w = 0b000#3 ∨ funct3Of w = 0b101#3)) := by
  by_cases h0 : funct7Of w = 0b0000000#7
  · obtain h | h | h | h | h | h | h | h := funct3_cases (funct3Of w) <;> simp [decodeOp, h, h0]
  by_cases h32 : funct7Of w = 0b0100000#7
  · obtain h | h | h | h | h | h | h | h := funct3_cases (funct3Of w) <;> simp [decodeOp, h, h32]
  · simp [decodeOp, h0, h32]

theorem decodeShiftImm_error_iff :
    (∃ e, decodeShiftImm w = .error e) ↔
      ¬ (funct7Of w = 0b0000000#7 ∧ (funct3Of w = 0b001#3 ∨ funct3Of w = 0b101#3)) ∧
      ¬ (funct7Of w = 0b0100000#7 ∧ funct3Of w = 0b101#3) := by
  unfold decodeShiftImm
  split
  case h_4 slli srli srai =>
    exact ⟨fun _ => ⟨fun ⟨h7, h3⟩ => h3.elim (slli h7) (srli h7), fun ⟨h7, h3⟩ => srai h7 h3⟩,
      fun _ => ⟨_, rfl⟩⟩
  all_goals simp [‹funct3Of w = _›, ‹funct7Of w = _›]

/-- Class (f). -/
theorem decodeOpImm_error_iff :
    (∃ e, decodeOpImm w = .error e) ↔
      (funct3Of w = 0b001#3 ∧ funct7Of w ≠ 0b0000000#7) ∨
        (funct3Of w = 0b101#3 ∧ funct7Of w ≠ 0b0000000#7 ∧ funct7Of w ≠ 0b0100000#7) := by
  obtain h | h | h | h | h | h | h | h := funct3_cases (funct3Of w) <;>
    simp [decodeOpImm, decodeShiftImm_error_iff, h]

/-- Settles O14: opcode by opcode; a word with another opcode is of class (a). -/
theorem unrecognisedWordsAreTheSpecsSixClasses : Obligations.UnrecognisedWordsAreTheSpecsSixClasses := by
  intro w
  unfold decode
  split
  case h_9 lui auipc jal branch store op load opImm =>
    exact ⟨fun _ => .inl ⟨lui, auipc, jal, branch, store, op, load, opImm⟩, fun _ => ⟨_, rfl⟩⟩
  all_goals
    simp [‹opcodeOf w = _›, decodeBranch_error_iff, decodeStore_error_iff, decodeLoad_error_iff,
      decodeOp_error_iff, decodeOpImm_error_iff]

end Sys2Proof
end

section
/-! SUPPORT. The opcode table as data: what it means for a row to cover a word, that no two rows cover one word,
and that the decoder agrees with the rows (spec/30_encoding.md R80). -/

namespace Sys2Proof

variable {w v m p : Word} {i : Instr} {row : OpcodeRow} {name : String} {op f7 : BitVec 7} {f3 : BitVec 3}

/-! ### No two rows cover one word -/

/-- Two rows that agree on the bits that both of them fix are the same row. -/
theorem eq_of_patterns_agree : ∀ p ∈ opcodeRows, ∀ q ∈ opcodeRows,
    p.pattern &&& q.mask = q.pattern &&& p.mask → p = q := by
  decide

/-- Settles O13: rows that cover one word agree, as the word does, on the bits that both of them fix. -/
theorem opcodeRowsDoNotOverlap : Obligations.OpcodeRowsDoNotOverlap := by
  intro w p q hp hq hpw hqw
  have hpw : w &&& p.mask = p.pattern := beq_iff_eq.1 hpw
  have hqw : w &&& q.mask = q.pattern := beq_iff_eq.1 hqw
  refine eq_of_patterns_agree p hp q hq ?_
  rw [← hpw, ← hqw, BitVec.and_assoc, BitVec.and_assoc, BitVec.and_comm p.mask]

/-! ### A mask compares fields -/

theorem opcodeOf_and : opcodeOf (w &&& v) = opcodeOf w &&& opcodeOf v := BitVec.extractLsb'_and ..
theorem rdOf_and : rdOf (w &&& v) = rdOf w &&& rdOf v := BitVec.extractLsb'_and ..
theorem funct3Of_and : funct3Of (w &&& v) = funct3Of w &&& funct3Of v := BitVec.extractLsb'_and ..
theorem rs1Of_and : rs1Of (w &&& v) = rs1Of w &&& rs1Of v := BitVec.extractLsb'_and ..
theorem rs2Of_and : rs2Of (w &&& v) = rs2Of w &&& rs2Of v := BitVec.extractLsb'_and ..
theorem funct7Of_and : funct7Of (w &&& v) = funct7Of w &&& funct7Of v := BitVec.extractLsb'_and ..

/-- A word is determined by its six fields (R71). -/
theorem eq_of_fields (hop : opcodeOf w = opcodeOf v) (hd : rdOf w = rdOf v) (h3 : funct3Of w = funct3Of v)
    (h1 : rs1Of w = rs1Of v) (h2 : rs2Of w = rs2Of v) (h7 : funct7Of w = funct7Of v) : w = v := by
  rw [← encodeR_fields w, ← encodeR_fields v, h7, h2, h1, h3, hd, hop]

/-- A mask with no bit of `rd`, `rs1` and `rs2` compares the opcodes and the selectors, each under its part of
the mask. -/
theorem and_eq_and_iff (hd : rdOf m = 0#5) (h1 : rs1Of m = 0#5) (h2 : rs2Of m = 0#5) :
    w &&& m = v &&& m ↔ opcodeOf w &&& opcodeOf m = opcodeOf v &&& opcodeOf m ∧
      funct3Of w &&& funct3Of m = funct3Of v &&& funct3Of m ∧
      funct7Of w &&& funct7Of m = funct7Of v &&& funct7Of m := by
  simp only [← opcodeOf_and, ← funct3Of_and, ← funct7Of_and]
  refine ⟨fun h => by simp only [h, and_self], fun ⟨hop, h3, h7⟩ => eq_of_fields hop ?_ h3 ?_ ?_ h7⟩
  · simp [rdOf_and, hd]
  · simp [rs1Of_and, h1]
  · simp [rs2Of_and, h2]

theorem and_opcodeMask_iff : w &&& 0x0000007F#32 = v &&& 0x0000007F#32 ↔ opcodeOf w = opcodeOf v := by
  rw [and_eq_and_iff (by decide) (by decide) (by decide),
    show opcodeOf 0x0000007F#32 = BitVec.allOnes 7 by decide,
    show funct3Of 0x0000007F#32 = 0#3 by decide, show funct7Of 0x0000007F#32 = 0#7 by decide]
  simp only [BitVec.and_allOnes, BitVec.and_zero, and_true]

theorem and_funct3Mask_iff :
    w &&& 0x0000707F#32 = v &&& 0x0000707F#32 ↔ opcodeOf w = opcodeOf v ∧ funct3Of w = funct3Of v := by
  rw [and_eq_and_iff (by decide) (by decide) (by decide),
    show opcodeOf 0x0000707F#32 = BitVec.allOnes 7 by decide,
    show funct3Of 0x0000707F#32 = BitVec.allOnes 3 by decide, show funct7Of 0x0000707F#32 = 0#7 by decide]
  simp only [BitVec.and_allOnes, BitVec.and_zero, and_true]

theorem and_funct7Mask_iff :
    w &&& 0xFE00707F#32 = v &&& 0xFE00707F#32 ↔
      opcodeOf w = opcodeOf v ∧ funct3Of w = funct3Of v ∧ funct7Of w = funct7Of v := by
  rw [and_eq_and_iff (by decide) (by decide) (by decide),
    show opcodeOf 0xFE00707F#32 = BitVec.allOnes 7 by decide,
    show funct3Of 0xFE00707F#32 = BitVec.allOnes 3 by decide,
    show funct7Of 0xFE00707F#32 = BitVec.allOnes 7 by decide]
  simp only [BitVec.and_allOnes]

/-- A row whose pattern lies in its mask covers the words that agree with the pattern under the mask. -/
theorem covers_iff (hp : row.pattern &&& row.mask = row.pattern) :
    row.covers w = true ↔ w &&& row.mask = row.pattern &&& row.mask := by
  rw [hp]; exact beq_iff_eq

theorem pattern_and_mask : ∀ row ∈ opcodeRows, row.pattern &&& row.mask = row.pattern := by decide

/-! ### A covered word decodes to the row's instruction

One lemma per mask of the table; `hd` is the row's line of the decode procedure. -/

/-- `w` decodes to an instruction of the row. -/
def DecodesTo (w : Word) (row : OpcodeRow) : Prop := ∃ i, decode w = .ok i ∧ mnemonic i = row.mnemonic

theorem decodesTo_of_opcode (hd : opcodeOf w = opcodeOf p → decode w = .ok i)
    (h : (OpcodeRow.mk name p 0x0000007F#32).covers w = true)
    (hp : p &&& 0x0000007F#32 = p := by rfl) (hm : mnemonic i = name := by rfl) :
    DecodesTo w ⟨name, p, 0x0000007F#32⟩ :=
  have hop := and_opcodeMask_iff.1 ((covers_iff hp).1 h)
  ⟨i, hd hop, hm⟩

theorem decodesTo_of_funct3 (hd : opcodeOf w = opcodeOf p → funct3Of w = funct3Of p → decode w = .ok i)
    (h : (OpcodeRow.mk name p 0x0000707F#32).covers w = true)
    (hp : p &&& 0x0000707F#32 = p := by rfl) (hm : mnemonic i = name := by rfl) :
    DecodesTo w ⟨name, p, 0x0000707F#32⟩ :=
  have ⟨hop, h3⟩ := and_funct3Mask_iff.1 ((covers_iff hp).1 h)
  ⟨i, hd hop h3, hm⟩

theorem decodesTo_of_funct7
    (hd : opcodeOf w = opcodeOf p → funct3Of w = funct3Of p → funct7Of w = funct7Of p → decode w = .ok i)
    (h : (OpcodeRow.mk name p 0xFE00707F#32).covers w = true)
    (hp : p &&& 0xFE00707F#32 = p := by rfl) (hm : mnemonic i = name := by rfl) :
    DecodesTo w ⟨name, p, 0xFE00707F#32⟩ :=
  have ⟨hop, h3, h7⟩ := and_funct7Mask_iff.1 ((covers_iff hp).1 h)
  ⟨i, hd hop h3 h7, hm⟩

/-- Row by row, from the row's line of the decode procedure (R81). -/
theorem decodesTo_of_covers : ∀ row ∈ opcodeRows, row.covers w = true → DecodesTo w row := by
  obtain ⟨lui, auipc, jal, beq, bne, blt, bge, bltu, bgeu, sb, sh, sw, add, sub, slt, sltu, xor, or, and, sll,
    srl, sra, lb, lh, lw, lbu, lhu, addi, slti, sltiu, xori, ori, andi, slli, srli, srai⟩ :=
    decoderReadsTheFieldsOfEveryRow w
  have control : ∀ row ∈ opcodeRowsControl, row.covers w = true → DecodesTo w row := by
    simp only [opcodeRowsControl, List.forall_mem_cons]
    exact ⟨fun h => decodesTo_of_opcode lui h, fun h => decodesTo_of_opcode auipc h,
      fun h => decodesTo_of_opcode jal h, fun h => decodesTo_of_funct3 beq h,
      fun h => decodesTo_of_funct3 bne h, fun h => decodesTo_of_funct3 blt h,
      fun h => decodesTo_of_funct3 bge h, fun h => decodesTo_of_funct3 bltu h,
      fun h => decodesTo_of_funct3 bgeu h, fun h => decodesTo_of_funct3 sb h,
      fun h => decodesTo_of_funct3 sh h, fun h => decodesTo_of_funct3 sw h, List.forall_mem_nil _⟩
  have register : ∀ row ∈ opcodeRowsRegister, row.covers w = true → DecodesTo w row := by
    simp only [opcodeRowsRegister, List.forall_mem_cons]
    exact ⟨fun h => decodesTo_of_funct7 add h, fun h => decodesTo_of_funct7 sub h,
      fun h => decodesTo_of_funct7 sll h, fun h => decodesTo_of_funct7 slt h,
      fun h => decodesTo_of_funct7 sltu h, fun h => decodesTo_of_funct7 xor h,
      fun h => decodesTo_of_funct7 srl h, fun h => decodesTo_of_funct7 sra h,
      fun h => decodesTo_of_funct7 or h, fun h => decodesTo_of_funct7 and h, List.forall_mem_nil _⟩
  have immediate : ∀ row ∈ opcodeRowsImmediate, row.covers w = true → DecodesTo w row := by
    simp only [opcodeRowsImmediate, List.forall_mem_cons]
    exact ⟨fun h => decodesTo_of_funct3 lb h, fun h => decodesTo_of_funct3 lh h,
      fun h => decodesTo_of_funct3 lw h, fun h => decodesTo_of_funct3 lbu h,
      fun h => decodesTo_of_funct3 lhu h, fun h => decodesTo_of_funct3 addi h,
      fun h => decodesTo_of_funct3 slti h, fun h => decodesTo_of_funct3 sltiu h,
      fun h => decodesTo_of_funct3 xori h, fun h => decodesTo_of_funct3 ori h,
      fun h => decodesTo_of_funct3 andi h, fun h => decodesTo_of_funct7 slli h,
      fun h => decodesTo_of_funct7 srli h, fun h => decodesTo_of_funct7 srai h, List.forall_mem_nil _⟩
  exact List.forall_mem_append.2 ⟨List.forall_mem_append.2 ⟨control, register⟩, immediate⟩

/-! ### A word that decodes is covered by a row

One lemma per mask of the table; `h` finds the row with the opcode and the selectors. -/

theorem exists_row_of_opcode (hop : opcodeOf w = op)
    (h : ∃ row ∈ opcodeRows, row.mask = 0x0000007F#32 ∧ opcodeOf row.pattern = op) :
    ∃ row ∈ opcodeRows, row.covers w = true := by
  obtain ⟨row, hrow, hm, rfl⟩ := h
  refine ⟨row, hrow, ?_⟩
  rw [covers_iff (pattern_and_mask row hrow), hm]
  exact and_opcodeMask_iff.2 hop

theorem exists_row_of_funct3 (hop : opcodeOf w = op) (h3 : funct3Of w = f3)
    (h : ∃ row ∈ opcodeRows, row.mask = 0x0000707F#32 ∧ opcodeOf row.pattern = op ∧
      funct3Of row.pattern = f3) :
    ∃ row ∈ opcodeRows, row.covers w = true := by
  obtain ⟨row, hrow, hm, rfl, rfl⟩ := h
  refine ⟨row, hrow, ?_⟩
  rw [covers_iff (pattern_and_mask row hrow), hm]
  exact and_funct3Mask_iff.2 ⟨hop, h3⟩

theorem exists_row_of_funct7 (hop : opcodeOf w = op) (h3 : funct3Of w = f3) (h7 : funct7Of w = f7)
    (h : ∃ row ∈ opcodeRows, row.mask = 0xFE00707F#32 ∧ opcodeOf row.pattern = op ∧
      funct3Of row.pattern = f3 ∧ funct7Of row.pattern = f7) :
    ∃ row ∈ opcodeRows, row.covers w = true := by
  obtain ⟨row, hrow, hm, rfl, rfl, rfl⟩ := h
  refine ⟨row, hrow, ?_⟩
  rw [covers_iff (pattern_and_mask row hrow), hm]
  exact and_funct7Mask_iff.2 ⟨hop, h3, h7⟩

/-- Format by format (R72). -/
theorem exists_row_covers_encode (i : Instr) : ∃ row ∈ opcodeRows, row.covers (encode i) = true := by
  cases i with
  | lui | auipc => exact exists_row_of_opcode (opcodeOf_encodeU ..) (by decide)
  | jal => exact exists_row_of_opcode (opcodeOf_encodeJ ..) (by decide)
  | beq | bne | blt | bge | bltu | bgeu =>
    exact exists_row_of_funct3 (opcodeOf_encodeB ..) (funct3Of_encodeB ..) (by decide)
  | sb | sh | sw => exact exists_row_of_funct3 (opcodeOf_encodeS ..) (funct3Of_encodeS ..) (by decide)
  | lb | lh | lw | lbu | lhu | addi | slti | sltiu | xori | ori | andi =>
    exact exists_row_of_funct3 (opcodeOf_encodeI ..) (funct3Of_encodeI ..) (by decide)
  | add | sub | sll | slt | sltu | xor | srl | sra | or | and | slli | srli | srai =>
    exact exists_row_of_funct7 (opcodeOf_encodeR ..) (funct3Of_encodeR ..) (funct7Of_encodeR ..) (by decide)

/-- Settles O12: a covered word decodes to the row's instruction. A word that decodes is the encoding of its
instruction, so some row covers it, and by the first half that row has the instruction's mnemonic. -/
theorem decoderAgreesWithTheOpcodeTable : Obligations.DecoderAgreesWithTheOpcodeTable := by
  refine fun w => ⟨decodesTo_of_covers, fun i hi => ?_⟩
  obtain ⟨row, hrow, hc⟩ := exists_row_covers_encode i
  rw [encodeOfDecodeIsTheWord w i hi] at hc
  obtain ⟨j, hj, hm⟩ := decodesTo_of_covers row hrow hc
  obtain rfl : i = j := Except.ok.inj (hi.symm.trans hj)
  exact ⟨row, hrow, hc, hm⟩

end Sys2Proof
end

section
/-! SUPPORT. The upper-immediate family: LUI and AUIPC hand their result to `writeResult`
(spec/40_upper_immediate.md R100, R101). -/

namespace Sys2Proof.Machine

variable {s : State} {rd : RegIdx} {imm : Word}

theorem exec_lui : exec (.lui rd imm) s = writeResult rd imm s := rfl

/-- The `pc` of the sum is that of the state before, the address of the AUIPC itself. -/
theorem exec_auipc : exec (.auipc rd imm) s = writeResult rd (s.pc + imm) s := rfl

/-- Settles O19: LUI's line of the decode procedure, and `writeResult` with the immediate itself. -/
theorem luiLoadsTheUpperImmediate : Obligations.LuiLoadsTheUpperImmediate := by
  refine ⟨fun w hop => ?decodes, fun rd imm s => ?completes⟩
  case decodes =>
    obtain ⟨hlui, -⟩ := decoderReadsTheFieldsOfEveryRow w
    exact hlui hop
  case completes =>
    rw [exec_lui]
    exact writeResult_completes

/-- Settles O20: the sum of words is the exact sum modulo `2^32`. -/
theorem auipcAddsTheUpperImmediateToPc : Obligations.AuipcAddsTheUpperImmediateToPc := by
  intro rd imm s
  have hsum : s.pc + imm = BitVec.ofNat 32 (s.pc.toNat + imm.toNat) := BitVec.add_def s.pc imm
  rw [exec_auipc]
  exact writeResult_completes_with hsum

end Sys2Proof.Machine
end

section
/-! SUPPORT. The jump family: JAL links and jumps and checks nothing; a target outside memory is a fetch fault
of the next step (spec/41_jump.md R110, spec/20_memory.md R56). -/

namespace Sys2Proof.Machine

variable {s t : State} {rd : RegIdx} {target v p imm : Word}

/-- Both `pc`s are that of the state before, the address of the JAL itself. -/
theorem exec_jal : exec (.jal rd imm) s = jumpAndLink rd (s.pc + imm) s := rfl

theorem jumpAndLink_completes :
    ∃ t, jumpAndLink rd target s = .next t ∧ WritesOnly rd (s.pc + 4#32) target s t :=
  ⟨_, rfl, writesOnly_setPc⟩

/-- A register write and a `pc` keep the fault status and the parameters, so the fetch of the next step is
checked against the same memory (R50, R203). -/
theorem WritesOnly.step_of_outOfBounds (hw : WritesOnly rd v p s t) (hf : s.fault = none)
    (hp : outOfBounds s p .word) : step t = .next (t.takeFault (.boundsViolation p .word)) := by
  have hfault : t.fault = none := hw.fault.trans hf
  have hpc : outOfBounds t t.pc .word := by rwa [outOfBounds, hw.pc, hw.cfg]
  rw [step_of_unfetched hfault hpc, hw.pc]

/-- Settles O21: JAL is `jumpAndLink`, and the state it leaves cannot fetch from a target out of bounds. -/
theorem jalLinksAndJumps : Obligations.JalLinksAndJumps := by
  intro rd imm s
  obtain ⟨t, ht, hw⟩ := jumpAndLink_completes (s := s) (rd := rd) (target := s.pc + imm)
  exact ⟨t, exec_jal.trans ht, hw, hw.step_of_outOfBounds⟩

end Sys2Proof.Machine
end

section
/-! SUPPORT. The branch family: each branch is `branchIf` on one comparison of its two registers, so its
arms are told apart by what that comparison says of their readings (spec/42_branch.md R120 to R126). -/

namespace Sys2Proof.Machine

variable {s : State} {rs1 rs2 : RegIdx} {imm a b : Word}

/-! ### What each comparison says -/

theorem equalBits_iff : equalBits a b = true ↔ a = b := beq_iff_eq

theorem not_equalBits_iff : (!equalBits a b) = true ↔ ¬ a = b := by
  rw [Bool.not_eq_true', ← Bool.not_eq_true, equalBits_iff]

theorem lessSigned_iff : lessSigned a b = true ↔ a.toInt < b.toInt := decide_eq_true_iff

theorem not_lessSigned_iff : (!lessSigned a b) = true ↔ a.toInt ≥ b.toInt := by
  rw [Bool.not_eq_true', ← Bool.not_eq_true, lessSigned_iff, ge_iff_le, not_lt]

theorem lessUnsigned_iff : lessUnsigned a b = true ↔ a.toNat < b.toNat := decide_eq_true_iff

theorem not_lessUnsigned_iff : (!lessUnsigned a b) = true ↔ a.toNat ≥ b.toNat := by
  rw [Bool.not_eq_true', ← Bool.not_eq_true, lessUnsigned_iff, ge_iff_le, not_lt]

/-! ### The branch each instruction is -/

theorem exec_beq :
    exec (.beq rs1 rs2 imm) s = branchIf (equalBits (s.readReg rs1) (s.readReg rs2)) (s.pc + imm) s := rfl

theorem exec_bne :
    exec (.bne rs1 rs2 imm) s = branchIf (!equalBits (s.readReg rs1) (s.readReg rs2)) (s.pc + imm) s := rfl

theorem exec_blt :
    exec (.blt rs1 rs2 imm) s = branchIf (lessSigned (s.readReg rs1) (s.readReg rs2)) (s.pc + imm) s := rfl

theorem exec_bge :
    exec (.bge rs1 rs2 imm) s = branchIf (!lessSigned (s.readReg rs1) (s.readReg rs2)) (s.pc + imm) s := rfl

theorem exec_bltu :
    exec (.bltu rs1 rs2 imm) s = branchIf (lessUnsigned (s.readReg rs1) (s.readReg rs2)) (s.pc + imm) s := rfl

theorem exec_bgeu :
    exec (.bgeu rs1 rs2 imm) s = branchIf (!lessUnsigned (s.readReg rs1) (s.readReg rs2)) (s.pc + imm) s := rfl

/-! ### The obligations -/

/-- A branch whose condition says `P` completes, at its target if `P` and at the next instruction if not. -/
theorem branchIf_completes_iff {c : Bool} {P : Prop} [Decidable P] {target : Word} (h : c = true ↔ P) :
    ∃ t, branchIf c target s = .next t ∧ MovesOnly (if P then target else s.pc + 4#32) s t :=
  branchIf_completes_at (if_congr h rfl rfl)

/-- Settles O22: the statement gives the arms of BNE under equality, where BNE is not taken. -/
theorem equalityBranches : Obligations.EqualityBranches := by
  intro rs1 rs2 imm s
  rw [exec_beq, exec_bne]
  refine ⟨branchIf_completes_iff equalBits_iff, branchIf_completes_at ?_⟩
  rw [if_congr not_equalBits_iff rfl rfl, ite_not]

/-- Settles O23: BLT is taken on `s(a) < s(b)`, and BGE on its negation. -/
theorem signedBranches : Obligations.SignedBranches := by
  intro rs1 rs2 imm s
  rw [exec_blt, exec_bge]
  exact ⟨branchIf_completes_iff lessSigned_iff, branchIf_completes_iff not_lessSigned_iff⟩

/-- Settles O24: BLTU is taken on `u(a) < u(b)`, and BGEU on its negation. -/
theorem unsignedBranches : Obligations.UnsignedBranches := by
  intro rs1 rs2 imm s
  rw [exec_bltu, exec_bgeu]
  exact ⟨branchIf_completes_iff lessUnsigned_iff, branchIf_completes_iff not_lessUnsigned_iff⟩

end Sys2Proof.Machine
end

section
/-! SUPPORT. The store family: each store is `storeTo` of its width, so what a store does is said once for every
width and read off at 1, 2 and 4 bytes (spec/43_store.md R130 to R133). -/

namespace Sys2Proof.Machine

variable {s : State} {addr : Word} {n : Width} {rs1 rs2 : RegIdx} {imm v : Word}

/-! ### The store each instruction is -/

theorem exec_sb : exec (.sb rs1 rs2 imm) s = storeTo (s.readReg rs1 + imm) .byte (s.readReg rs2) s := rfl

theorem exec_sh : exec (.sh rs1 rs2 imm) s = storeTo (s.readReg rs1 + imm) .half (s.readReg rs2) s := rfl

theorem exec_sw : exec (.sw rs1 rs2 imm) s = storeTo (s.readReg rs1 + imm) .word (s.readReg rs2) s := rfl

/-! ### The bytes a store of each width writes (R44, R46, decision D7) -/

/-- The low `n.bytes` bytes of `v`, most significant first. -/
def lowBytes (n : Width) (v : Word) : List Byte :=
  (List.range n.bytes).map fun k => v.extractLsb' (8 * (n.bytes - k - 1)) 8

theorem lowBytes_byte : lowBytes .byte v = [v.extractLsb' 0 8] := rfl

theorem lowBytes_half : lowBytes .half v = [v.extractLsb' 8 8, v.extractLsb' 0 8] := rfl

theorem lowBytes_word : lowBytes .word v =
    [v.extractLsb' 24 8, v.extractLsb' 16 8, v.extractLsb' 8 8, v.extractLsb' 0 8] := rfl

theorem length_lowBytes : (lowBytes n v).length = n.bytes := by simp [lowBytes]

theorem bits_eq_bytes : n.bits = 8 * n.bytes := by cases n <;> rfl

/-- Byte `k` of the low bits that a store writes is byte `k` of the low bytes. -/
theorem Memory.get_write_lowBits {mem : Memory} {a k : Nat} (hk : k < (lowBytes n v).length) :
    (mem.write a n (v.extractLsb' 0 n.bits)).get (a + k) = (lowBytes n v)[k] := by
  have hkn : k < n.bytes := hk.trans_eq length_lowBytes
  have hslice : 8 * (n.bytes - k - 1) + 8 ≤ n.bits := by rw [bits_eq_bytes]; omega
  rw [Memory.get_write_inside hkn, BitVec.extractLsb'_extractLsb'_of_le hslice]
  simp [lowBytes]

/-! ### The obligation -/

/-- A store in bounds completes with the low bytes of its value. -/
theorem storeTo_completes_lowBytes (hb : addr.toNat + n.bytes ≤ s.cfg.memSize) :
    ∃ t, storeTo addr n v s = .next t ∧ StoresOnly addr.toNat (lowBytes n v) s t :=
  storeTo_completes (Nat.not_lt.2 hb) length_lowBytes fun _ => Memory.get_write_lowBits

/-- Settles O25: the two outcomes of `storeTo`, in and out of bounds, at each width. -/
theorem storesWriteTheLowBytesBigEndianOrRaise : Obligations.StoresWriteTheLowBytesBigEndianOrRaise := by
  intro rs1 rs2 imm s
  rw [exec_sb, exec_sh, exec_sw, ← lowBytes_word, ← lowBytes_half, ← lowBytes_byte]
  exact ⟨fun hb => storeTo_completes_lowBytes hb, fun hb => storeTo_completes_lowBytes hb,
    fun hb => storeTo_completes_lowBytes hb, fun hb => storeTo_outOfBounds hb,
    fun hb => storeTo_outOfBounds hb, fun hb => storeTo_outOfBounds hb⟩

end Sys2Proof.Machine
end

section
/-! SUPPORT. The register-register ALU family: each instruction hands one operation of its two registers to
`writeResult`, so its proof is what that operation computes (spec/44_alu_register.md R140 to R153). -/

namespace Sys2Proof.Machine

variable {s : State} {rd rs1 rs2 : RegIdx} {a b v : Word} {k : BitVec 5} {j : Nat}

/-! ### The result each instruction writes (R141) -/

theorem exec_add : exec (.add rd rs1 rs2) s = writeResult rd (s.readReg rs1 + s.readReg rs2) s := rfl

theorem exec_sub : exec (.sub rd rs1 rs2) s = writeResult rd (s.readReg rs1 - s.readReg rs2) s := rfl

theorem exec_slt : exec (.slt rd rs1 rs2) s =
    writeResult rd (oneIf (lessSigned (s.readReg rs1) (s.readReg rs2))) s := rfl

theorem exec_sltu : exec (.sltu rd rs1 rs2) s =
    writeResult rd (oneIf (lessUnsigned (s.readReg rs1) (s.readReg rs2))) s := rfl

theorem exec_xor : exec (.xor rd rs1 rs2) s = writeResult rd (s.readReg rs1 ^^^ s.readReg rs2) s := rfl

theorem exec_or : exec (.or rd rs1 rs2) s = writeResult rd (s.readReg rs1 ||| s.readReg rs2) s := rfl

theorem exec_and : exec (.and rd rs1 rs2) s = writeResult rd (s.readReg rs1 &&& s.readReg rs2) s := rfl

theorem exec_sll : exec (.sll rd rs1 rs2) s =
    writeResult rd (shiftLeft (s.readReg rs1) (s.shiftAmount rs2)) s := rfl

theorem exec_srl : exec (.srl rd rs1 rs2) s =
    writeResult rd (shiftRightLogical (s.readReg rs1) (s.shiftAmount rs2)) s := rfl

theorem exec_sra : exec (.sra rd rs1 rs2) s =
    writeResult rd (shiftRightArith (s.readReg rs1) (s.shiftAmount rs2)) s := rfl

/-! ### What the operations compute -/

/-- A difference of words is the exact one modulo `2^32`: each side plus `b` is `a`. -/
theorem sub_eq_ofInt : a - b = BitVec.ofInt 32 (a.toNat - b.toNat) := by
  rw [sub_eq_iff_eq_add]
  calc a = BitVec.ofInt 32 ((a.toNat : Int) - b.toNat + b.toNat) := by simp
    _ = BitVec.ofInt 32 (a.toNat - b.toNat) + b := by rw [BitVec.ofInt_add]; simp

theorem oneIf_eq_ite {c : Bool} {P : Prop} [Decidable P] (h : c = true ↔ P) :
    oneIf c = if P then 1#32 else 0#32 := if_congr h rfl rfl

theorem shiftLeft_eq_ofNat : shiftLeft a k = BitVec.ofNat 32 (a.toNat * 2 ^ k.toNat) :=
  (ofNat_mul_two_pow a k.toNat).symm

theorem shiftRightLogical_eq_ofNat : shiftRightLogical a k = BitVec.ofNat 32 (a.toNat / 2 ^ k.toNat) :=
  (ofNat_div_two_pow a k.toNat).symm

theorem shiftRightArith_eq_ofInt :
    shiftRightArith a k = BitVec.ofInt 32 (Int.fdiv a.toInt (2 ^ k.toNat)) :=
  (ofInt_fdiv_two_pow a k.toNat).symm

/-- The low 5 bits of a register are its value modulo 32 (R153, decision D5). -/
theorem toNat_shiftAmount : (s.shiftAmount rs2).toNat = (s.readReg rs2).toNat % 32 :=
  BitVec.extractLsb'_toNat 0 5 (s.readReg rs2)

/-! ### The arithmetic right shift (R152) -/

theorem shiftRightArith_getLsbD (hj : j < 32) :
    (shiftRightArith a k).getLsbD j =
      if j + k.toNat < 32 then a.getLsbD (j + k.toNat) else a.getLsbD 31 := by
  rw [shiftRightArith, BitVec.getLsbD_sshiftRight, BitVec.msb_eq_getLsbD_last, Nat.add_comm k.toNat j]
  simp [hj]

/-- The source's mask has its 1s in the bits that a shift by `n` vacates. -/
theorem vacatedBits_getLsbD {n : Nat} (hj : j < 32) :
    (~~~(0xFFFFFFFF#32 >>> n)).getLsbD j = !decide (j + n < 32) := by
  rw [show 0xFFFFFFFF#32 = BitVec.allOnes 32 by rfl, BitVec.getLsbD_not, BitVec.getLsbD_ushiftRight,
    BitVec.getLsbD_allOnes, Nat.add_comm n j]
  simp [hj]

/-- A bit that stays in the word is a bit of the logical shift, which the mask leaves alone; a vacated bit is 0 in
the logical shift, and the mask sets it when the sign bit is set. -/
theorem shiftRightArith_eq_or_vacatedBits :
    shiftRightArith a k =
      (a >>> k.toNat) ||| (if a.getLsbD 31 then ~~~(0xFFFFFFFF#32 >>> k.toNat) else 0#32) := by
  apply BitVec.eq_of_getLsbD_eq
  intro j hj
  rw [shiftRightArith_getLsbD hj, BitVec.getLsbD_or, BitVec.getLsbD_ushiftRight, Nat.add_comm k.toNat j,
    apply_ite (BitVec.getLsbD · j), vacatedBits_getLsbD hj, BitVec.getLsbD_zero]
  by_cases hstays : j + k.toNat < 32
  · simp [hstays]
  · have hvacated : a.getLsbD (j + k.toNat) = false := BitVec.getLsbD_of_ge _ _ (Nat.le_of_not_lt hstays)
    simp [hstays, hvacated]

/-- Settles O30: the bits, the source's construction and the signed quotient. -/
theorem arithmeticRightShiftFillsWithTheSign : Obligations.ArithmeticRightShiftFillsWithTheSign :=
  fun a k => ⟨fun _ hj => shiftRightArith_getLsbD hj, shiftRightArith_eq_or_vacatedBits,
    toInt_sshiftRight_eq_fdiv a k.toNat⟩

/-! ### The instructions -/

/-- `writeResult` completes with a result known by a property. -/
theorem writeResult_completes_of {P : Word → Prop} (h : P v) :
    ∃ t v', writeResult rd v s = .next t ∧ WritesOnly rd v' (s.pc + 4#32) s t ∧ P v' := by
  obtain ⟨t, ht, hw⟩ := writeResult_completes (s := s) (rd := rd) (v := v)
  exact ⟨t, v, ht, hw, h⟩

/-- Settles O26: the sum and the difference of words are the exact ones modulo `2^32`. -/
theorem addAndSubAreModuloTwoToTheThirtyTwo : Obligations.AddAndSubAreModuloTwoToTheThirtyTwo := by
  intro rd rs1 rs2 s
  rw [exec_add, exec_sub]
  exact ⟨writeResult_completes_with (BitVec.add_def _ _), writeResult_completes_with sub_eq_ofInt⟩

/-- Settles O27: SLT writes the outcome of the signed comparison, SLTU that of the unsigned one. -/
theorem setLessThanSignedAndUnsigned : Obligations.SetLessThanSignedAndUnsigned := by
  intro rd rs1 rs2 s
  rw [exec_slt, exec_sltu]
  exact ⟨writeResult_completes_with (oneIf_eq_ite lessSigned_iff),
    writeResult_completes_with (oneIf_eq_ite lessUnsigned_iff)⟩

/-- Settles O28: bit `k` of a bitwise operation is the operation on the two bits `k`. -/
theorem bitwiseOperations : Obligations.BitwiseOperations := by
  intro rd rs1 rs2 s
  rw [exec_xor, exec_or, exec_and]
  exact ⟨writeResult_completes_of fun _ => BitVec.getLsbD_xor,
    writeResult_completes_of fun _ => BitVec.getLsbD_or, writeResult_completes_of fun _ => BitVec.getLsbD_and⟩

/-- Settles O29: each shift by its amount, and the amount is the register modulo 32. -/
theorem registerShiftsTakeTheAmountModuloThirtyTwo :
    Obligations.RegisterShiftsTakeTheAmountModuloThirtyTwo := by
  intro rd rs1 rs2 s
  rw [exec_sll, exec_srl, exec_sra, ← toNat_shiftAmount]
  exact ⟨writeResult_completes_with shiftLeft_eq_ofNat,
    writeResult_completes_with shiftRightLogical_eq_ofNat,
    writeResult_completes_with shiftRightArith_eq_ofInt⟩

end Sys2Proof.Machine
end

section
/-! SUPPORT. The load family: each instruction is `loadFrom` at its address with a width and an extension, so its
proof is what the two extensions compute (spec/45_load.md R160 to R165). -/

namespace Sys2Proof.Machine

variable {s : State} {addr : Word} {n : Width} {rd rs1 : RegIdx} {imm : Word}

/-! ### The load each instruction is -/

theorem exec_lb : exec (.lb rd rs1 imm) s = loadFrom (s.readReg rs1 + imm) .byte sext rd s := rfl

theorem exec_lbu : exec (.lbu rd rs1 imm) s = loadFrom (s.readReg rs1 + imm) .byte zext rd s := rfl

theorem exec_lh : exec (.lh rd rs1 imm) s = loadFrom (s.readReg rs1 + imm) .half sext rd s := rfl

theorem exec_lhu : exec (.lhu rd rs1 imm) s = loadFrom (s.readReg rs1 + imm) .half zext rd s := rfl

theorem exec_lw : exec (.lw rd rs1 imm) s = loadFrom (s.readReg rs1 + imm) .word zext rd s := rfl

/-! ### The two extensions of what is read (R10) -/

/-- A sign-extending load in bounds completes with the signed value of the bytes it reads. -/
theorem loadFrom_sext_completes (hb : addr.toNat + n.bytes ≤ s.cfg.memSize) :
    ∃ t, loadFrom addr n sext rd s = .next t ∧
      WritesOnly rd (BitVec.ofInt 32 (s.mem.read addr.toNat n).toInt) (s.pc + 4#32) s t :=
  loadFrom_completes (Nat.not_lt.2 hb) (ofInt_toInt_eq_sext _).symm

/-- A zero-extending load in bounds completes with the unsigned value of the bytes it reads. -/
theorem loadFrom_zext_completes (hb : addr.toNat + n.bytes ≤ s.cfg.memSize) :
    ∃ t, loadFrom addr n zext rd s = .next t ∧
      WritesOnly rd (BitVec.ofNat 32 (s.mem.read addr.toNat n).toNat) (s.pc + 4#32) s t :=
  loadFrom_completes (Nat.not_lt.2 hb) (BitVec.ofNat_toNat 32 _).symm

/-! ### The obligation -/

/-- Settles O31: the two outcomes of `loadFrom`, in and out of bounds, at each width; the sums of weighted bytes
are the values of the bytes joined, which is what a memory read is. -/
theorem loadsWriteTheExtendedBytesOrRaise : Obligations.LoadsWriteTheExtendedBytesOrRaise := by
  intro rd rs1 imm s
  rw [exec_lb, exec_lbu, exec_lh, exec_lhu, exec_lw, ← toNat_append_bytes2, ← toNat_append_bytes4]
  exact ⟨fun hb => ⟨loadFrom_sext_completes hb, loadFrom_zext_completes hb⟩,
    fun hb => ⟨loadFrom_sext_completes hb, loadFrom_zext_completes hb⟩,
    fun hb => loadFrom_zext_completes hb,
    fun hb => ⟨loadFrom_outOfBounds hb, loadFrom_outOfBounds hb⟩,
    fun hb => ⟨loadFrom_outOfBounds hb, loadFrom_outOfBounds hb⟩, fun hb => loadFrom_outOfBounds hb⟩

end Sys2Proof.Machine
end

section
/-! SUPPORT. The register-immediate ALU family: each instruction hands its register and its immediate to the
operation of the register-register instruction of the same name, so what that operation computes is known
(spec/46_alu_immediate.md R170 to R179). -/

namespace Sys2Proof.Machine

variable {s : State} {rd rs1 : RegIdx} {imm : Word} {shamt : BitVec 5}

/-! ### The result each instruction writes (R170) -/

theorem exec_addi : exec (.addi rd rs1 imm) s = writeResult rd (s.readReg rs1 + imm) s := rfl

theorem exec_slti : exec (.slti rd rs1 imm) s =
    writeResult rd (oneIf (lessSigned (s.readReg rs1) imm)) s := rfl

theorem exec_sltiu : exec (.sltiu rd rs1 imm) s =
    writeResult rd (oneIf (lessUnsigned (s.readReg rs1) imm)) s := rfl

theorem exec_xori : exec (.xori rd rs1 imm) s = writeResult rd (s.readReg rs1 ^^^ imm) s := rfl

theorem exec_ori : exec (.ori rd rs1 imm) s = writeResult rd (s.readReg rs1 ||| imm) s := rfl

theorem exec_andi : exec (.andi rd rs1 imm) s = writeResult rd (s.readReg rs1 &&& imm) s := rfl

theorem exec_slli : exec (.slli rd rs1 shamt) s = writeResult rd (shiftLeft (s.readReg rs1) shamt) s := rfl

theorem exec_srli : exec (.srli rd rs1 shamt) s =
    writeResult rd (shiftRightLogical (s.readReg rs1) shamt) s := rfl

theorem exec_srai : exec (.srai rd rs1 shamt) s =
    writeResult rd (shiftRightArith (s.readReg rs1) shamt) s := rfl

/-! ### The instructions -/

/-- Settles O32: ADDI writes the exact sum modulo `2^32`, SLTI the outcome of the signed comparison, SLTIU that of
the unsigned one. -/
theorem addImmediateAndSetLessThanImmediate : Obligations.AddImmediateAndSetLessThanImmediate := by
  intro rd rs1 imm s
  rw [exec_addi, exec_slti, exec_sltiu]
  exact ⟨writeResult_completes_with (BitVec.add_def _ _),
    writeResult_completes_with (oneIf_eq_ite lessSigned_iff),
    writeResult_completes_with (oneIf_eq_ite lessUnsigned_iff)⟩

/-- Settles O33: bit `k` of a bitwise operation is the operation on the bits `k` of register and immediate. -/
theorem bitwiseImmediateOperations : Obligations.BitwiseImmediateOperations := by
  intro rd rs1 imm s
  rw [exec_xori, exec_ori, exec_andi]
  exact ⟨writeResult_completes_of fun _ => BitVec.getLsbD_xor,
    writeResult_completes_of fun _ => BitVec.getLsbD_or, writeResult_completes_of fun _ => BitVec.getLsbD_and⟩

/-- Settles O34: each shift operation has its arithmetic for every 5-bit amount, and `shamt` is one. -/
theorem immediateShifts : Obligations.ImmediateShifts := by
  intro rd rs1 shamt s
  rw [exec_slli, exec_srli, exec_srai]
  exact ⟨writeResult_completes_with shiftLeft_eq_ofNat,
    writeResult_completes_with shiftRightLogical_eq_ofNat,
    writeResult_completes_with shiftRightArith_eq_ofInt⟩

end Sys2Proof.Machine
end

section
/-! SUPPORT. The words that are no instruction (spec/47_unrecognized.md R190, R191, R194): what a step does with one
under each policy, and that the policy has no influence on a step that fetches none. -/

namespace Sys2Proof.Machine

variable {s t : State} {i : Instr} {w : Word} {e : Unrecognised} {p : IllegalPolicy} {addr x v : Word}
  {n : Width} {rd : RegIdx}

/-! ### The step of an unrecognised word (R190, R191) -/

/-- An unfaulted machine whose fetched word does not decode does what the policy says. -/
theorem step_of_unrecognised (h : s.fault = none) (hf : s.fetch = .ok w) (hd : decode w = .error e) :
    step s = settle s (execUnrecognised w s) := by
  obtain ⟨hb, rfl⟩ := fetch_ok hf
  rw [step_of_fetched h hb, hd]

theorem execUnrecognised_of_fault (hp : s.cfg.illegalPolicy = .fault) :
    execUnrecognised w s = .fault (.illegalInstruction s.pc w) := by
  rw [execUnrecognised, hp]

theorem execUnrecognised_of_skip (hp : s.cfg.illegalPolicy = .skip) :
    execUnrecognised w s = .next s.advance := by
  rw [execUnrecognised, hp]

/-- Settles O44: the fault is taken, and a faulted machine steps to itself. -/
theorem unrecognisedWordFaultsUnderFault : Obligations.UnrecognisedWordFaultsUnderFault := by
  intro s w e h hp hf hd
  refine ⟨s.takeFault (.illegalInstruction s.pc w), ?_, rfl, step_of_faulted rfl⟩
  rw [step_of_unrecognised h hf hd, execUnrecognised_of_fault hp, settle_fault]

/-- Only under the policy `fault` does a state raise `IllegalInstruction`: an instruction that decodes raises
nothing but bounds violations. -/
theorem policy_of_raisedFault_illegal {pc : Word} (hr : raisedFault s = some (.illegalInstruction pc w)) :
    s.cfg.illegalPolicy = .fault := by
  by_cases hb : outOfBounds s s.pc .word
  · rw [raisedFault_of_unfetched hb] at hr; cases hr
  · cases hd : decode (wordAtPc s) with
    | error e =>
      rw [raisedFault_of_fetched hb, hd] at hr
      by_contra hp
      simp [hp] at hr
    | ok i =>
      obtain ⟨_, _, _, _, hbounds⟩ := exec_fault_iff.1 ((raisedFault_eq_some_iff hb hd).1 hr)
      cases hbounds

/-- Settles O45: the word is skipped; and a step raises what its state raises. -/
theorem unrecognisedWordIsSkippedUnderSkip : Obligations.UnrecognisedWordIsSkippedUnderSkip := by
  refine fun s h hp => ⟨fun w e hf hd => ?_, fun t pc w ht hill => ?_⟩
  · rw [step_of_unrecognised h hf hd, execUnrecognised_of_skip hp, settle_next]
    rfl
  · have hr : raisedFault s = some (.illegalInstruction pc w) :=
      ((step_cases ht).fault_of_unfaulted h).symm.trans hill
    have hp' := policy_of_raisedFault_illegal hr
    rw [hp] at hp'
    cases hp'

/-! ### No step changes the parameters (R194) -/

theorem StepCase.cfg_eq (hc : StepCase s t) : t.cfg = s.cfg := by
  cases hc with
  | stays | faults | skips => rfl
  | runs _ _ _ _ _ _ he => exact (exec_next_cases he).cfg_eq

/-! ### No instruction reads the policy (R194): each shape of effect commutes with changing it -/

theorem State.withPolicy_writeReg :
    (s.withPolicy p).writeReg rd v = (s.writeReg rd v).withPolicy p := by
  unfold State.writeReg; split <;> rfl

/-- The bounds of an access do not depend on the policy. -/
theorem outOfBounds_withPolicy : outOfBounds (s.withPolicy p) addr n ↔ outOfBounds s addr n := Iff.rfl

theorem writeResult_withPolicy :
    writeResult rd v (s.withPolicy p) = mapNext (State.withPolicy p) (writeResult rd v s) := by
  rw [writeResult, State.withPolicy_writeReg]; rfl

theorem jumpAndLink_withPolicy :
    jumpAndLink rd x (s.withPolicy p) = mapNext (State.withPolicy p) (jumpAndLink rd x s) := by
  rw [jumpAndLink, State.withPolicy_writeReg]; rfl

theorem branchIf_withPolicy {c : Bool} :
    branchIf c x (s.withPolicy p) = mapNext (State.withPolicy p) (branchIf c x s) := by
  cases c <;> rfl

theorem loadFrom_withPolicy {ext : BitVec n.bits → Word} :
    loadFrom addr n ext rd (s.withPolicy p) = mapNext (State.withPolicy p) (loadFrom addr n ext rd s) := by
  by_cases hb : outOfBounds s addr n
  · rw [loadFrom_outOfBounds hb, loadFrom_outOfBounds (outOfBounds_withPolicy.2 hb), mapNext_fault]
  · rw [loadFrom_inBounds hb, loadFrom_inBounds (mt outOfBounds_withPolicy.1 hb)]
    exact writeResult_withPolicy

theorem storeTo_withPolicy :
    storeTo addr n v (s.withPolicy p) = mapNext (State.withPolicy p) (storeTo addr n v s) := by
  by_cases hb : outOfBounds s addr n
  · rw [storeTo_outOfBounds hb, storeTo_outOfBounds (outOfBounds_withPolicy.2 hb), mapNext_fault]
  · rw [storeTo_inBounds hb, storeTo_inBounds (mt outOfBounds_withPolicy.1 hb)]
    rfl

/-- An instruction does the same under every policy. -/
theorem exec_withPolicy (i : Instr) (p : IllegalPolicy) (s : State) :
    exec i (s.withPolicy p) = mapNext (State.withPolicy p) (exec i s) := by
  cases i with
  | lui | auipc => exact writeResult_withPolicy
  | add | sub | sll | slt | sltu | xor | srl | sra | or | and => exact writeResult_withPolicy
  | addi | slti | sltiu | xori | ori | andi | slli | srli | srai => exact writeResult_withPolicy
  | jal => exact jumpAndLink_withPolicy
  | lb | lh | lw | lbu | lhu => exact loadFrom_withPolicy
  | beq | bne | blt | bge | bltu | bgeu => exact branchIf_withPolicy
  | sb | sh | sw => exact storeTo_withPolicy

/-! ### Steps and runs that fetch no unrecognised word (R194) -/

theorem settle_withPolicy (o : Host.Outcome State Fault Refusal) :
    settle (s.withPolicy p) (mapNext (State.withPolicy p) o) =
      mapNext (State.withPolicy p) (settle s o) := by
  cases o <;> rfl

/-- A step that fetches no unrecognised word is the same under every policy. -/
theorem step_withPolicy (hrec : ∀ w, s.fetch = .ok w → ∃ i, decode w = .ok i) :
    step (s.withPolicy p) = mapNext (State.withPolicy p) (step s) := by
  by_cases h : s.fault.isSome = true
  · rw [step_of_faulted h, step_of_faulted (s := s.withPolicy p) h, mapNext_next]
  replace h : s.fault = none := by simpa using h
  by_cases hb : outOfBounds s s.pc .word
  · rw [step_of_unfetched h hb, step_of_unfetched (s := s.withPolicy p) h hb]
    rfl
  · have hf : s.fetch = .ok (wordAtPc s) := memRead_inBounds hb
    obtain ⟨i, hd⟩ := hrec _ hf
    rw [step_of_decoded h hf hd, step_of_decoded (s := s.withPolicy p) h hf hd, exec_withPolicy,
      settle_withPolicy]

/-- `run_succ` for this machine: a run goes on from the state its first step answers. -/
theorem core_run_succ {k : Nat} (h : step s = .next t) :
    Sys2Proof.core.run (k + 1) s = Sys2Proof.core.run k t := run_succ (M := Sys2Proof.core) k h

/-- A run that fetches no unrecognised word is the same under every policy. -/
theorem run_withPolicy {k : Nat} (hrec : RecognisedFor k s) :
    Sys2Proof.core.run k (s.withPolicy p) = mapNext (State.withPolicy p) (Sys2Proof.core.run k s) := by
  induction k generalizing s with
  | zero => rfl
  | succ k ih =>
    obtain ⟨hfetch, t, ht, hk⟩ := hrec
    have hstep : step (s.withPolicy p) = .next (t.withPolicy p) := by
      rw [step_withPolicy hfetch, ht, mapNext_next]
    rw [core_run_succ hstep, core_run_succ ht, ih hk]

/-- Settles O51: by the four cases of a step, and by induction on the number of steps. -/
theorem policiesAgreeOnRecognisedRuns : Obligations.PoliciesAgreeOnRecognisedRuns :=
  ⟨fun _ _ h => (step_cases h).cfg_eq, fun _ _ _ hrec => run_withPolicy hrec⟩

end Sys2Proof.Machine
end

section
/-! SUPPORT. Faults are precise, taken in order, and terminal, and the self-jump is a fixed point that raises none
(spec/60_exceptions.md R203 to R206, spec/70_reset_and_hazards.md R240). -/

namespace Sys2Proof.Machine

variable {s t : State} {f : Fault}

/-! ### A faulting step is precise (R203, R206) -/

/-- A step from an unfaulted machine to a faulted one has taken the fault, and nothing else. -/
theorem StepCase.eq_takeFault (hc : StepCase s t) (hs : s.fault = none) (ht : t.fault = some f) :
    t = s.takeFault f := by
  cases hc with
  | faults g => cases ht; rfl
  | stays => rw [hs] at ht; cases ht
  | skips => rw [State.advance_fault, hs] at ht; cases ht
  | runs _ _ _ _ _ _ he => rw [(exec_next_cases he).fault_eq, hs] at ht; cases ht

/-- Settles O49: by the cases of a step. -/
theorem faultingStepIsPreciseAndInPriorityOrder :
    Obligations.FaultingStepIsPreciseAndInPriorityOrder :=
  fun _ _ hs h => ⟨(step_cases h).fault_of_unfaulted hs, fun _ => (step_cases h).eq_takeFault hs⟩

/-! ### Fixed points of the step (R204, R240) -/

/-- From a state that steps to itself every run ends in that state. -/
theorem run_of_fixed {M : Host.Core} {a : M.State} (h : M.step a = .next a) (k : Nat) :
    M.run k a = .next a := by
  induction k with
  | zero => rfl
  | succ k ih => exact (run_succ k h).trans ih

/-- An unfaulted state that steps to itself is safe for any number of steps. -/
theorem safeFor_of_fixed (hf : s.fault = none) (h : step s = .next s) (k : Nat) : SafeFor k s := by
  induction k with
  | zero => exact hf
  | succ k ih => exact ⟨hf, s, h, ih⟩

/-- An action of the host other than reset keeps a fault. -/
theorem HostCase.fault_of_faulted {a : HostAction} {h k : Session} (hc : HostCase h a k) (ha : a ≠ .reset)
    (hf : h.machine.fault = some f) : k.machine.fault = some f := by
  cases hc with
  | reset => exact absurd rfl ha
  | load => exact hf
  | trigger t ht => exact (step_cases ht).fault_of_faulted hf

/-- Settles O46: a faulted machine is a fixed point of the step, and of the host's actions only reset clears the
fault. -/
theorem faultIsTerminal : Obligations.FaultIsTerminal := by
  intro s f hf
  have hstep : step s = .next s := step_of_faulted (Option.isSome_of_mem hf)
  refine ⟨hstep, run_of_fixed (M := Sys2Proof.core) hstep, fun a b k hk hne => ?_⟩
  by_contra ha
  exact hne ((hostAct_cases hk).fault_of_faulted ha hf)

/-! ### The self-jump (R110, R240) -/

theorem decode_selfJump : decode 0x0000006F#32 = .ok (.jal 0#5 0#32) := by decide

/-- `jal x0, 0` links nothing and jumps to itself. -/
theorem exec_selfJump : exec (.jal 0#5 0#32) s = .next s := by
  rw [exec_jal, jumpAndLink, State.writeReg_zero, BitVec.add_zero]
  rfl

/-- A halted machine steps to itself. -/
theorem step_of_halted (h : halted s) : step s = .next s := by
  obtain ⟨hf, hfetch⟩ := h
  rw [step_of_decoded hf hfetch decode_selfJump, exec_selfJump, settle_next]

/-- Settles O52: the self-jump is an unfaulted fixed point of the step. -/
theorem selfJumpIsAFixedPoint : Obligations.SelfJumpIsAFixedPoint :=
  fun _ h =>
    have hstep := step_of_halted h
    ⟨hstep, safeFor_of_fixed h.1 hstep⟩

end Sys2Proof.Machine
end

section
/-! SUPPORT. The host's actions: reset, the program load and the trigger, the invariant of the session, and that no
load is accepted once a step has happened (spec/70_reset_and_hazards.md R230 to R244). -/

namespace Sys2Proof.Machine

variable {h k : Session} {s t : State} {a : HostAction} {actions : List HostAction} {index : Nat} {v : Word}

/-! ### Reset and trigger (R230, R239) -/

theorem hostAct_reset : hostAct .reset h = .next (Session.start h.machine.cfg) := rfl

theorem hostAct_trigger (ht : step h.machine = .next t) : hostAct .trigger h = .next ⟨t, true⟩ := by
  rw [hostAct, ht]; rfl

/-- Settles O2: reset starts a session with the parameters of the machine. -/
theorem resetEndsEveryState : Obligations.ResetEndsEveryState :=
  fun _ => ⟨_, hostAct_reset, State.resetWith_readReg _, fun _ => rfl, rfl, rfl, rfl, rfl⟩

/-- Settles O58: every step answers a next state, and the trigger takes it. -/
theorem triggerIsOneStep : Obligations.TriggerIsOneStep := by
  intro h
  obtain ⟨t, ht⟩ := step_next h.machine
  exact ⟨t, ht, hostAct_trigger ht⟩

/-! ### The program load (R238) -/

/-- A load inside memory before the first step writes its word. -/
theorem hostAct_load_inBounds (hb : 4 * index + 4 ≤ s.cfg.memSize) :
    hostAct (.load index v) ⟨s, false⟩ =
      .next ⟨{ s with mem := s.mem.write (4 * index) .word v }, false⟩ := by
  rw [hostAct_load_fresh rfl, loadWord_inBounds hb]; rfl

/-- A load outside memory before the first step is refused. -/
theorem hostAct_load_outOfBounds (hb : s.cfg.memSize < 4 * index + 4) :
    hostAct (.load index v) ⟨s, false⟩ = .refused (.loadBoundsViolation (4 * index) .word) := by
  rw [hostAct_load_fresh rfl, loadWord_outOfBounds hb]; rfl

/-- Settles O3: the write of a word at `4 * index`, byte by byte, and the refusal. -/
theorem loadWordPlacesTheWordBigEndian : Obligations.LoadWordPlacesTheWordBigEndian := by
  refine fun index v s => ⟨fun hb => ?_, hostAct_load_outOfBounds⟩
  have hbyte : ∀ k, k < 4 → (s.mem.write (4 * index) .word v).get (4 * index + k) =
      v.extractLsb' (8 * (4 - k - 1)) 8 := fun _ => Memory.get_write_inside (n := .word)
  exact ⟨_, hostAct_load_inBounds hb, hbyte 0 (by decide), hbyte 1 (by decide), hbyte 2 (by decide),
    hbyte 3 (by decide), fun _ => Memory.get_write_outside (n := .word), fun _ => rfl, rfl, rfl, rfl⟩

/-! ### The invariant of the session (R232, R238, R241) -/

/-- Before the first step there is no fault. -/
theorem Session.Inv.unfaulted (hi : h.Inv) (hs : h.stepped = false) : h.machine.fault = none :=
  congrArg State.fault (hi.fresh hs)

/-- A load inside memory before the first step keeps the invariant of the session. -/
theorem Session.Inv.load (hi : h.Inv) (hs : h.stepped = false)
    (hb : 4 * index + 4 ≤ h.machine.cfg.memSize) :
    Session.Inv ⟨{ h.machine with mem := h.machine.mem.write (4 * index) .word v }, false⟩ where
  machine := State.inv_of_unfaulted hi.machine.cfg_wf
    (Memory.wf_write (n := .word) (w := v) hi.machine.mem_wf hb) hi.machine.pc_even (hi.unfaulted hs)
  fresh _ := congrArg (fun s : State => { s with mem := h.machine.mem.write (4 * index) .word v })
    (hi.fresh hs)

/-- Settles O56: by the cases of an action of the host. -/
theorem hostActionsKeepTheInvariant : Obligations.HostActionsKeepTheInvariant := by
  intro a h k hi hk
  cases hostAct_cases hk with
  | reset => exact Session.start_inv hi.machine.cfg_wf
  | load index v hs hb => exact hi.load hs hb
  | trigger t ht => exact ⟨stepKeepsTheInvariant _ _ hi.machine ht, nofun⟩

/-! ### Loads after the first step (R241, R244) -/

theorem hostRun_append {later : List HostAction} :
    hostRun (actions ++ later) h = hostRun later (hostRun actions h) := List.foldl_append

theorem hostRun_cons : hostRun (a :: actions) h = hostRun actions (hostNext h a) := rfl

/-- Actions without a reset never forget that a step has happened. -/
theorem hostRun_keeps_stepped (ha : .reset ∉ actions) (hs : h.stepped = true) :
    (hostRun actions h).stepped = true := by
  induction actions generalizing h with
  | nil => exact hs
  | cons a rest ih =>
    obtain ⟨hne, hrest⟩ := List.ne_and_not_mem_of_not_mem_cons ha
    rw [hostRun_cons]
    exact ih hrest (hostNext_keeps_stepped (Ne.symm hne) hs)

/-- After a trigger, and actions without a reset, a step has happened. -/
theorem hostRun_stepped_of_trigger {before after : List HostAction} (ha : .reset ∉ after) :
    (hostRun (before ++ .trigger :: after) h).stepped = true := by
  rw [hostRun_append, hostRun_cons]
  exact hostRun_keeps_stepped ha hostNext_trigger_stepped

/-- Settles O57: the session is one in which a step has happened, so the load is refused. -/
theorem loadIsRefusedAfterTheFirstStep : Obligations.LoadIsRefusedAfterTheFirstStep := by
  intro before after h ha index v
  have hload := hostAct_load_stepped (index := index) (v := v)
    (hostRun_stepped_of_trigger (h := h) (before := before) ha)
  exact ⟨hload, hostRun_append.trans (hostNext_of_refused hload)⟩

end Sys2Proof.Machine
end

section
/-! SUPPORT. The canonical form of memory (log 4). -/

namespace Sys2Proof.Machine

/-- Settles O39: a canonical memory lists exactly its non-zero bytes, in the order of their addresses. -/
theorem canonicalMemoriesThatReadAlikeAreEqual : Obligations.CanonicalMemoriesThatReadAlikeAreEqual :=
  fun _ _ _ => Memory.ext_of_wfFrom

end Sys2Proof.Machine
end
